-- ==== Sys2Proof/Word.lean ====
section
/-! DEFINITION. The word types of the CHIP-8 core: bytes, 16-bit words, instruction fields. -/

namespace Sys2Proof

/-- 8 bits: a data register, a timer, a memory byte, the immediate `nn` (00_scope R5, 10_state R21, R28, R30). -/
abbrev Byte := BitVec 8

/-- 16 bits: an instruction word, `I`, `PC`, a stack slot (10_state R23, R24, R25; 30_encoding R80). -/
abbrev Word := BitVec 16

/-- A 4-bit register number, field `x` or `y` of a word: every value names a register (30_encoding R81, R82). -/
abbrev Reg := BitVec 4

/-- The 4-bit row count `n` of Dxyn (30_encoding R81, R82). -/
abbrev Nibble := BitVec 4

/-- The 12-bit address immediate `nnn` (30_encoding R81, R82). -/
abbrev Addr := BitVec 12

/-- VF, the flag register: register number 0xF (10_state R22). -/
abbrev flagReg : Reg := 0xF#4

end Sys2Proof
end

