-- ==== Sys2Proof/Config.lean ====
section
/-! DEFINITION. What the implementation fixes and the free values: the parameters of 00_scope R5, and the step's inputs of R6. -/

namespace Sys2Proof

/-- FONT_BASE, the address of glyph 0, is OPEN in the spec: no value, only `FONT_BASE + 80 <= 0x200`
(00_scope R5, 92_eei_decisions D8). It has no body, so a proof about the reset state holds for
every admissible value; the bound stands in the type: 433 values, 0 to 0x1B0. Log 1. Safe. -/
opaque Config.fontBase : Fin 433

/-- The random byte that reaches the core as its `k`-th input: any value, under no law
(00_scope R6, 41_arithmetic_logic R132, 92_eei_decisions D15, 93 U9). A free value. Log 4. Safe. -/
opaque Config.rnd : Nat → Byte

/-- The key levels that reach the core as its `k`-th input: any value (00_scope R6, 44_timers_keypad R176,
92_eei_decisions D16, 93 U11). A free value. Log 5. Safe. -/
opaque Config.keys : Nat → BitVec 16

/-- The implementation parameters of 00_scope R5 that are not fixed by the spec. The model takes them as an
argument by holding them in State, where every rule reads them and nothing writes them. Log 3. -/
structure Params where
  /-- FONT_BASE: the address of glyph 0, with `FONT_BASE + 80 <= 0x200` by the type. -/
  fontBase : Fin 433
  /-- FONT[0..79]: the font bitmap, 16 glyphs of 5 bytes (10_state R31). -/
  font : Vector Byte 80
  /-- DRAW_WRAP: DRW wraps the pixels past an edge (true) or clips them (false). -/
  drawWrap : Bool
  /-- QUIRK_SHIFT_VX: 8xy6 and 8xyE shift Vx in place (true) or Vy into Vx (false). -/
  quirkShiftVx : Bool
  /-- QUIRK_LOADSTORE_KEEP_I: Fx55 and Fx65 leave I (true) or advance it by x + 1 (false). -/
  quirkLoadStoreKeepI : Bool
  /-- QUIRK_JUMP_VX: Bnnn adds Vx, x = nnn[11:8] (true) or V0 (false). -/
  quirkJumpVx : Bool
  /-- KEYPAD_PRESENT: the key instructions read the key levels (true) or fault (false). -/
  keypadPresent : Bool
  deriving DecidableEq, Repr

end Sys2Proof
end

