-- ==== Sys2Proof/Machine/Params.lean ====
section
/-! DEFINITION. The parameter values of the reset machine (00_scope R5) and the reset contents of memory (10_state R31, R33). -/

namespace Sys2Proof

/-- Glyphs 0 to 7 of the customary font (10_state R31). PRESUMED: from general knowledge, not in the source (G1). -/
def fontLowGlyphs : List Byte :=
  [0xF0, 0x90, 0x90, 0x90, 0xF0,  0x20, 0x60, 0x20, 0x20, 0x70,
   0xF0, 0x10, 0xF0, 0x80, 0xF0,  0xF0, 0x10, 0xF0, 0x10, 0xF0,
   0x90, 0x90, 0xF0, 0x10, 0x10,  0xF0, 0x80, 0xF0, 0x10, 0xF0,
   0xF0, 0x80, 0xF0, 0x90, 0xF0,  0xF0, 0x10, 0x20, 0x40, 0x40]

/-- Glyphs 8 to F of the customary font (10_state R31). PRESUMED, as above. -/
def fontHighGlyphs : List Byte :=
  [0xF0, 0x90, 0xF0, 0x90, 0xF0,  0xF0, 0x90, 0xF0, 0x10, 0xF0,
   0xF0, 0x90, 0xF0, 0x90, 0x90,  0xE0, 0x90, 0xE0, 0x90, 0xE0,
   0xF0, 0x80, 0x80, 0x80, 0xF0,  0xE0, 0x90, 0x90, 0x90, 0xE0,
   0xF0, 0x80, 0xF0, 0x80, 0xF0,  0xF0, 0x80, 0xF0, 0x80, 0x80]

/-- The default of the Config parameter FONT (00_scope R5, 92_eei_decisions D8). PRESUMED, log 2, unsafe for a claim
about what a glyph of the reset machine looks like. -/
def defaultFont : Vector Byte 80 := ⟨(fontLowGlyphs ++ fontHighGlyphs).toArray, by decide⟩

/-- The parameters with every Config parameter at its stated default (00_scope R5), and FONT_BASE as given. -/
def Params.withFontBase (base : Fin 433) : Params :=
  { fontBase := base, font := defaultFont, drawWrap := true, quirkShiftVx := false,
    quirkLoadStoreKeepI := false, quirkJumpVx := false, keypadPresent := false }

/-- The parameters of the reset machine: FONT_BASE open, the rest at their defaults (00_scope R5). Log 1, 2, 3. -/
def Params.default : Params := Params.withFontBase Config.fontBase

/-- The byte of FONT that stands at address `a`, if `a` lies in the font range (10_state R31). -/
def Params.fontByte (p : Params) (a : Nat) : Option Byte :=
  if p.fontBase.val ≤ a then p.font[a - p.fontBase.val]? else none

/-- What a byte of memory that nothing has written holds: FONT in the font range, 0x00 elsewhere (10_state R33).
The font range ends below 0x200, so an address from 0x200 on needs no look at FONT_BASE. The zero is the spec's decision
D7: DESIGN CHOICE, log 8, unsafe. -/
def Params.resetByte (p : Params) (a : Nat) : Byte :=
  if a < 0x200 then (p.fontByte a).getD 0 else 0

end Sys2Proof
end

