-- ==== Sys2Proof/Machine/State.lean ====
section
/-! DEFINITION. The state of the machine as plain data (10_state), the reasons a step can stop, and the state after reset. -/

namespace Sys2Proof.Machine

open Sys2Proof

/-- The display buffer: 32 rows of 64 one-bit pixels, row first (10_state R29, 92_eei_decisions D10). -/
abbrev Display := Vector (Vector Bool 64) 32

/-- The reasons a step ends in a fault: the six causes of 60_exceptions R181. A fault is an outcome reported to the driver;
the faulting step changes no state, so none is carried (R180). All are the spec's own faults: each is safe. -/
inductive Fault where
  /-- Code 1 (R182). The fetch of any step, when PC > 0xFFE; `addr` is the lowest address out of range. Safe. -/
  | fetchOutOfBounds (pc0 : Word) (addr : Nat)
  /-- Code 2 (R183). Decode, when the word matches no row of the opcode map. Safe. -/
  | illegalInstruction (pc0 word : Word)
  /-- Code 3 (R184). Ex9E, ExA1 and Fx0A, when KEYPAD_PRESENT is false. Safe. -/
  | unsupportedOperation (pc0 word : Word)
  /-- Code 4 (R185). 2nnn, when SP = 16. Safe. -/
  | stackOverflow (pc0 word : Word)
  /-- Code 5 (R186). 00EE, when SP = 0. Safe. -/
  | stackUnderflow (pc0 word : Word)
  /-- Code 6 (R187). Dxyn, Fx33, Fx55 and Fx65, when a byte of the range lies past 0xFFF. Safe. -/
  | memOutOfBounds (pc0 word : Word) (addr : Nat)
  deriving DecidableEq, Repr

/-- The reasons an instruction has no meaning. Every instruction of the table has one, so nothing raises it. -/
inductive Refusal where
  /-- Raised by an arm of `exec` that has no meaning yet: none is left. Safe: the model stops. -/
  | notModelled (mnemonic : String)
  deriving DecidableEq, Repr

/-- The state: the eight items of 10_state R20, then the model's own four fields. -/
structure State where
  /-- V0 to VF (10_state R21). -/
  v : Vector Byte 16
  /-- The index register I (10_state R23). -/
  i : Word
  /-- The program counter (10_state R24). -/
  pc : Word
  /-- The stack pointer: how many slots are occupied, 0 to 16 (10_state R25). -/
  sp : Fin 17
  /-- The call-stack slots S[0] to S[15] (10_state R25). -/
  stack : Vector Word 16
  /-- The delay timer (10_state R28). -/
  dt : Byte
  /-- The sound timer (10_state R28). -/
  st : Byte
  /-- The display buffer (10_state R29). -/
  display : Display
  /-- Memory: the bytes that differ from their reset contents, addresses rising (10_state R30). -/
  mem : List Host.Cell
  /-- The model's own: the implementation parameters (00_scope R5). Log 3. -/
  params : Params
  /-- The model's own: the random-byte input of the coming step (00_scope R6). Log 4. -/
  rnd : Byte
  /-- The model's own: the key-level input of the coming step (00_scope R6). Log 5. -/
  keys : BitVec 16
  /-- The model's own: how many input pairs have been drawn. Log 6. -/
  inputs : Nat
  deriving DecidableEq, Repr

/-- The state after reset under given parameters and with given inputs for the first step (10_state R33, 70 R210). The zeros
of V, I, S, DT, ST and of memory outside the font are the spec's decision D7: DESIGN CHOICE, logs 7 and 8, unsafe. -/
def State.resetWith (p : Params) (rnd : Byte) (keys : BitVec 16) (inputs : Nat) : State :=
  { v := Vector.replicate 16 0x00
    i := 0x0000
    pc := 0x0200
    sp := 0
    stack := Vector.replicate 16 0x0000
    dt := 0x00
    st := 0x00
    display := Vector.replicate 32 (Vector.replicate 64 false)
    mem := []
    params := p
    rnd := rnd
    keys := keys
    inputs := inputs }

/-- The machine right after reset (10_state R33), with the default parameters and the first inputs free. -/
def State.reset : State := State.resetWith Params.default (Config.rnd 0) (Config.keys 0) 1

end Sys2Proof.Machine
end

