-- ==== Sys2Proof/Machine/Flags.lean ====
section
/-! DEFINITION. Every value an instruction writes to VF as a flag (10_state R22), as a byte 0x00 or 0x01. -/

namespace Sys2Proof.Machine

open Sys2Proof

/-- A flag as it stands in VF: 1 or 0 (10_state R22). -/
def flagByte (c : Bool) : Byte := if c then 0x01 else 0x00

/-- 8xy4: 1 if the widened sum exceeds 255 (41_arithmetic_logic R127, R133). -/
def carryFlag (a b : Byte) : Byte := flagByte (decide (255 < a.toNat + b.toNat))

/-- 8xy5 and 8xy7: 1 if there is no borrow, `minuend >= subtrahend` (41_arithmetic_logic R128, R130, R133). -/
def noBorrowFlag (minuend subtrahend : Byte) : Byte := flagByte (decide (subtrahend.toNat ≤ minuend.toNat))

/-- 8xy6: the bit a right shift shifts out, bit 0 of the source (41_arithmetic_logic R129). -/
def shiftedOutRight (source : Byte) : Byte := flagByte (source.getLsbD 0)

/-- 8xyE: the bit a left shift shifts out, bit 7 of the source (41_arithmetic_logic R131). -/
def shiftedOutLeft (source : Byte) : Byte := flagByte (source.getLsbD 7)

/-- Fx1E: 1 if the untruncated sum leaves the addressable range (42_memory_index R141). DESIGN CHOICE of the spec, D14:
log 17, unsafe. -/
def rangeFlag (sum : Nat) : Byte := flagByte (decide (0xFFF < sum))

end Sys2Proof.Machine
end

