-- ==== Sys2Proof/WellFormed.lean ====
section
/-! DEFINITION. What is well-formed, as decidable checks: a raw word against the opcode map of 30_encoding R85, a row of
that map, and the OPEN parameter FONT_BASE. Instructions need no further check: the field widths stand in their type. -/

namespace Sys2Proof

/-- One row of the opcode map: a word `w` selects it when `(w & mask) = value` (30_encoding R85). -/
structure OpcodeRow where
  mask : Word
  value : Word
  deriving DecidableEq, Repr

/-- A word selects a row (30_encoding R85). -/
def OpcodeRow.selects (r : OpcodeRow) (w : Word) : Bool := w &&& r.mask == r.value

/-- A row's value lies within its mask: it fixes no bit that it leaves free. -/
def OpcodeRow.wellFormed (r : OpcodeRow) : Bool := r.value &&& r.mask == r.value

/-- No word selects both rows: some bit that both fix differs (30_encoding R84, "No two rows overlap"). -/
def OpcodeRow.apartFrom (r t : OpcodeRow) : Bool := r.value &&& t.mask != t.value &&& r.mask

/-- The row of 30_encoding R85 that an instruction is an instance of: its `mask` and `match` columns. -/
def Instr.row : Instr → OpcodeRow
  | .cls => ⟨0xFFFF, 0x00E0⟩
  | .ret => ⟨0xFFFF, 0x00EE⟩
  | .jp .. => ⟨0xF000, 0x1000⟩
  | .call .. => ⟨0xF000, 0x2000⟩
  | .seImm .. => ⟨0xF000, 0x3000⟩
  | .sneImm .. => ⟨0xF000, 0x4000⟩
  | .seReg .. => ⟨0xF00F, 0x5000⟩
  | .ldImm .. => ⟨0xF000, 0x6000⟩
  | .addImm .. => ⟨0xF000, 0x7000⟩
  | .ldReg .. => ⟨0xF00F, 0x8000⟩
  | .orReg .. => ⟨0xF00F, 0x8001⟩
  | .andReg .. => ⟨0xF00F, 0x8002⟩
  | .xorReg .. => ⟨0xF00F, 0x8003⟩
  | .addReg .. => ⟨0xF00F, 0x8004⟩
  | .subReg .. => ⟨0xF00F, 0x8005⟩
  | .shr .. => ⟨0xF00F, 0x8006⟩
  | .subn .. => ⟨0xF00F, 0x8007⟩
  | .shl .. => ⟨0xF00F, 0x800E⟩
  | .sneReg .. => ⟨0xF00F, 0x9000⟩
  | .ldI .. => ⟨0xF000, 0xA000⟩
  | .jpV0 .. => ⟨0xF000, 0xB000⟩
  | .rnd .. => ⟨0xF000, 0xC000⟩
  | .drw .. => ⟨0xF000, 0xD000⟩
  | .skp .. => ⟨0xF0FF, 0xE09E⟩
  | .sknp .. => ⟨0xF0FF, 0xE0A1⟩
  | .ldVxDt .. => ⟨0xF0FF, 0xF007⟩
  | .ldVxK .. => ⟨0xF0FF, 0xF00A⟩
  | .ldDtVx .. => ⟨0xF0FF, 0xF015⟩
  | .ldStVx .. => ⟨0xF0FF, 0xF018⟩
  | .addIVx .. => ⟨0xF0FF, 0xF01E⟩
  | .ldFVx .. => ⟨0xF0FF, 0xF029⟩
  | .ldBVx .. => ⟨0xF0FF, 0xF033⟩
  | .ldMemVx .. => ⟨0xF0FF, 0xF055⟩
  | .ldVxMem .. => ⟨0xF0FF, 0xF065⟩

/-- The opcode map's rows of class 0 (30_encoding R85, rows 1 and 2). -/
def opcodeRowsClass0 : List OpcodeRow := [⟨0xFFFF, 0x00E0⟩, ⟨0xFFFF, 0x00EE⟩]

/-- The opcode map's rows that a class alone selects (30_encoding R85, formats A, XI and XYN). -/
def opcodeRowsByClass : List OpcodeRow :=
  [⟨0xF000, 0x1000⟩, ⟨0xF000, 0x2000⟩, ⟨0xF000, 0x3000⟩, ⟨0xF000, 0x4000⟩, ⟨0xF000, 0x6000⟩,
   ⟨0xF000, 0x7000⟩, ⟨0xF000, 0xA000⟩, ⟨0xF000, 0xB000⟩, ⟨0xF000, 0xC000⟩, ⟨0xF000, 0xD000⟩]

/-- The opcode map's rows that the class and field `n` select (30_encoding R85, format XY). -/
def opcodeRowsByNibble : List OpcodeRow :=
  [⟨0xF00F, 0x5000⟩, ⟨0xF00F, 0x8000⟩, ⟨0xF00F, 0x8001⟩, ⟨0xF00F, 0x8002⟩, ⟨0xF00F, 0x8003⟩,
   ⟨0xF00F, 0x8004⟩, ⟨0xF00F, 0x8005⟩, ⟨0xF00F, 0x8006⟩, ⟨0xF00F, 0x8007⟩, ⟨0xF00F, 0x800E⟩,
   ⟨0xF00F, 0x9000⟩]

/-- The opcode map's rows that the class and field `nn` select (30_encoding R85, format X). -/
def opcodeRowsByByte : List OpcodeRow :=
  [⟨0xF0FF, 0xE09E⟩, ⟨0xF0FF, 0xE0A1⟩, ⟨0xF0FF, 0xF007⟩, ⟨0xF0FF, 0xF00A⟩, ⟨0xF0FF, 0xF015⟩,
   ⟨0xF0FF, 0xF018⟩, ⟨0xF0FF, 0xF01E⟩, ⟨0xF0FF, 0xF029⟩, ⟨0xF0FF, 0xF033⟩, ⟨0xF0FF, 0xF055⟩,
   ⟨0xF0FF, 0xF065⟩]

/-- The whole opcode map, 34 rows (30_encoding R85). -/
def opcodeMap : List OpcodeRow :=
  opcodeRowsClass0 ++ opcodeRowsByClass ++ opcodeRowsByNibble ++ opcodeRowsByByte

/-- A word is legal when it selects some row; every other word is illegal (30_encoding R86). -/
def legalWord (w : Word) : Bool := opcodeMap.any fun r => r.selects w

/-- An instruction is well-formed when its row stands in the opcode map. -/
def Instr.WellFormed (i : Instr) : Bool := opcodeMap.contains i.row

/-- The constraint the spec puts on the OPEN parameter FONT_BASE (00_scope R5); `Params.fontBase` holds only such values. -/
def fontBaseAdmissible (base : Nat) : Bool := decide (base + 80 ≤ 0x200)

end Sys2Proof
end

