-- ==== Sys2Proof/Decode.lean ====
section
/-! DEFINITION. The decoder (30_encoding R80 to R86) and, after it, the encoder written from the same tables. -/

namespace Sys2Proof

/-- Why a word or a byte list is not an instruction, by the class it falls in (30_encoding R86). -/
inductive Reject where
  /-- fewer than two bytes: no word can be formed -/
  | truncated
  /-- `0nnn` other than 00E0 and 00EE -/
  | class0
  /-- `5xyn` with `n != 0` -/
  | class5
  /-- `8xyn` with `n` in 8 to 0xD or 0xF -/
  | class8
  /-- `9xyn` with `n != 0` -/
  | class9
  /-- `Exnn` with `nn` not in 9E, A1 -/
  | classE
  /-- `Fxnn` with `nn` not one of the nine of R84 -/
  | classF
  deriving DecidableEq, Repr

/-- Field `op`, bits 15:12 (30_encoding R81). -/
def opField (w : Word) : BitVec 4 := w.extractLsb' 12 4

/-- Field `x`, bits 11:8 (30_encoding R81). -/
def xField (w : Word) : Reg := w.extractLsb' 8 4

/-- Field `y`, bits 7:4 (30_encoding R81). -/
def yField (w : Word) : Reg := w.extractLsb' 4 4

/-- Field `n`, bits 3:0 (30_encoding R81). -/
def nField (w : Word) : Nibble := w.extractLsb' 0 4

/-- Field `nn`, bits 7:0 (30_encoding R81). -/
def nnField (w : Word) : Byte := w.extractLsb' 0 8

/-- Field `nnn`, bits 11:0 (30_encoding R81). -/
def nnnField (w : Word) : Addr := w.extractLsb' 0 12

/-- Class 0 is matched on the whole word (30_encoding R84, 92_eei_decisions D5). -/
def decodeClass0 (w : Word) : Except Reject Instr :=
  if w = 0x00E0 then .ok .cls else if w = 0x00EE then .ok .ret else .error .class0

/-- Class 8 dispatches on `n` (30_encoding R84). -/
def decodeClass8 (x y : Reg) (n : Nibble) : Except Reject Instr :=
  match n with
  | 0x0#4 => .ok (.ldReg x y)
  | 0x1#4 => .ok (.orReg x y)
  | 0x2#4 => .ok (.andReg x y)
  | 0x3#4 => .ok (.xorReg x y)
  | 0x4#4 => .ok (.addReg x y)
  | 0x5#4 => .ok (.subReg x y)
  | 0x6#4 => .ok (.shr x y)
  | 0x7#4 => .ok (.subn x y)
  | 0xE#4 => .ok (.shl x y)
  | _ => .error .class8

/-- Class 0xE dispatches on `nn` (30_encoding R84). -/
def decodeClassE (x : Reg) (nn : Byte) : Except Reject Instr :=
  match nn with
  | 0x9E#8 => .ok (.skp x)
  | 0xA1#8 => .ok (.sknp x)
  | _ => .error .classE

/-- Class 0xF dispatches on `nn` (30_encoding R84). -/
def decodeClassF (x : Reg) (nn : Byte) : Except Reject Instr :=
  match nn with
  | 0x07#8 => .ok (.ldVxDt x)
  | 0x0A#8 => .ok (.ldVxK x)
  | 0x15#8 => .ok (.ldDtVx x)
  | 0x18#8 => .ok (.ldStVx x)
  | 0x1E#8 => .ok (.addIVx x)
  | 0x29#8 => .ok (.ldFVx x)
  | 0x33#8 => .ok (.ldBVx x)
  | 0x55#8 => .ok (.ldMemVx x)
  | 0x65#8 => .ok (.ldVxMem x)
  | _ => .error .classF

/-- The decoder on a word: dispatch on `op`, then on the secondary key of its class (30_encoding R84). -/
def decodeWord (w : Word) : Except Reject Instr :=
  match opField w with
  | 0x0#4 => decodeClass0 w
  | 0x1#4 => .ok (.jp (nnnField w))
  | 0x2#4 => .ok (.call (nnnField w))
  | 0x3#4 => .ok (.seImm (xField w) (nnField w))
  | 0x4#4 => .ok (.sneImm (xField w) (nnField w))
  | 0x5#4 => if nField w = 0 then .ok (.seReg (xField w) (yField w)) else .error .class5
  | 0x6#4 => .ok (.ldImm (xField w) (nnField w))
  | 0x7#4 => .ok (.addImm (xField w) (nnField w))
  | 0x8#4 => decodeClass8 (xField w) (yField w) (nField w)
  | 0x9#4 => if nField w = 0 then .ok (.sneReg (xField w) (yField w)) else .error .class9
  | 0xA#4 => .ok (.ldI (nnnField w))
  | 0xB#4 => .ok (.jpV0 (nnnField w))
  | 0xC#4 => .ok (.rnd (xField w) (nnField w))
  | 0xD#4 => .ok (.drw (xField w) (yField w) (nField w))
  | 0xE#4 => decodeClassE (xField w) (nnField w)
  | _ => decodeClassF (xField w) (nnField w)

/-- Two bytes make a word, the byte at the lower address its high byte (30_encoding R80, 20_memory R53). -/
def wordOfBytes (first second : Byte) : Word := first ++ second

/-- The decoder on bytes: one instruction and the bytes after it, or the reason there is none (30_encoding R80). -/
def decode : List Byte → Except Reject (Instr × List Byte)
  | first :: second :: rest => (decodeWord (wordOfBytes first second)).map fun i => (i, rest)
  | _ => .error .truncated

/-- Format A: `hnnn` (30_encoding R83). -/
def formatA (op : BitVec 4) (nnn : Addr) : Word := op ++ nnn

/-- Format XI: `hxnn` (30_encoding R83). Format X is the same layout with `nn` fixed. -/
def formatXI (op : BitVec 4) (x : Reg) (nn : Byte) : Word := op ++ (x ++ nn)

/-- Format XYN: `hxyn` (30_encoding R83). Format XY is the same layout with `n` fixed. -/
def formatXYN (op : BitVec 4) (x y : Reg) (n : Nibble) : Word := op ++ (x ++ (y ++ n))

/-- The word of an instruction (30_encoding R83, R85). -/
def encode : Instr → Word
  | .cls => 0x00E0
  | .ret => 0x00EE
  | .jp nnn => formatA 0x1 nnn
  | .call nnn => formatA 0x2 nnn
  | .seImm x nn => formatXI 0x3 x nn
  | .sneImm x nn => formatXI 0x4 x nn
  | .seReg x y => formatXYN 0x5 x y 0x0
  | .ldImm x nn => formatXI 0x6 x nn
  | .addImm x nn => formatXI 0x7 x nn
  | .ldReg x y => formatXYN 0x8 x y 0x0
  | .orReg x y => formatXYN 0x8 x y 0x1
  | .andReg x y => formatXYN 0x8 x y 0x2
  | .xorReg x y => formatXYN 0x8 x y 0x3
  | .addReg x y => formatXYN 0x8 x y 0x4
  | .subReg x y => formatXYN 0x8 x y 0x5
  | .shr x y => formatXYN 0x8 x y 0x6
  | .subn x y => formatXYN 0x8 x y 0x7
  | .shl x y => formatXYN 0x8 x y 0xE
  | .sneReg x y => formatXYN 0x9 x y 0x0
  | .ldI nnn => formatA 0xA nnn
  | .jpV0 nnn => formatA 0xB nnn
  | .rnd x nn => formatXI 0xC x nn
  | .drw x y n => formatXYN 0xD x y n
  | .skp x => formatXI 0xE x 0x9E
  | .sknp x => formatXI 0xE x 0xA1
  | .ldVxDt x => formatXI 0xF x 0x07
  | .ldVxK x => formatXI 0xF x 0x0A
  | .ldDtVx x => formatXI 0xF x 0x15
  | .ldStVx x => formatXI 0xF x 0x18
  | .addIVx x => formatXI 0xF x 0x1E
  | .ldFVx x => formatXI 0xF x 0x29
  | .ldBVx x => formatXI 0xF x 0x33
  | .ldMemVx x => formatXI 0xF x 0x55
  | .ldVxMem x => formatXI 0xF x 0x65

/-- The first byte of a word in memory: bits 15 to 8 (20_memory R53). -/
def highByte (w : Word) : Byte := w.extractLsb' 8 8

/-- The second byte of a word in memory: bits 7 to 0 (20_memory R53). -/
def lowByte (w : Word) : Byte := w.extractLsb' 0 8

/-- The two bytes of an instruction as they stand in memory, low address first (30_encoding R80, R91). -/
def encodeBytes (i : Instr) : List Byte := [highByte (encode i), lowByte (encode i)]

/-- The one word of an instruction given as the opcode table numbers its bits: bit 0 is the least significant bit. -/
def tableWord (nbits w : Nat) : Word := BitVec.ofNat 16 (w % 2 ^ nbits)

/-- What the decoder reads from an instruction whose table bits are `w`, laid out in memory as two big-endian bytes. -/
def decodeTableWord (nbits w : Nat) : Option Instr :=
  match decode [highByte (tableWord nbits w), lowByte (tableWord nbits w)] with
  | .ok (i, _) => some i
  | .error _ => none

end Sys2Proof
end

