-- ==== Sys2Proof/Machine/Ops.lean ====
section
/-! DEFINITION. The named operations over registers, memory, stack, display and PC, and the raising of faults. -/

namespace Sys2Proof.Machine

open Sys2Proof

/-- What a step or an instruction answers. -/
abbrev Result := Host.Outcome State Fault Refusal

/-! ### Memory (10_state R30, 20_memory R52) -/

/-- The byte at `a`: the listed one, else the reset contents. -/
def Memory.read (p : Params) : List Host.Cell → Nat → Byte
  | [], a => p.resetByte a
  | (b, x) :: m, a => if a = b then x else Memory.read p m a

/-- Lists `x` at `a`, in place of an earlier entry, keeping the addresses in rising order. -/
def Memory.insert (a : Nat) (x : Byte) : List Host.Cell → List Host.Cell
  | [] => [(a, x)]
  | (b, y) :: m =>
    if a < b then (a, x) :: (b, y) :: m
    else if a = b then (a, x) :: m
    else (b, y) :: Memory.insert a x m

/-- Takes what is listed at `a` out of the list. -/
def Memory.erase (a : Nat) (m : List Host.Cell) : List Host.Cell := m.filter fun c => c.1 != a

/-- Stores a byte; storing what an unlisted address reads as takes the entry out (the canonical form). -/
def Memory.write (p : Params) (m : List Host.Cell) (a : Nat) (x : Byte) : List Host.Cell :=
  if x = p.resetByte a then Memory.erase a m else Memory.insert a x m

/-- The canonical form: addresses rise, every address exists, no entry equals the reset contents. -/
abbrev Memory.wf (p : Params) (m : List Host.Cell) : Prop :=
  m.Pairwise (fun c d => c.1 < d.1) ∧ ∀ c ∈ m, c.1 < 4096 ∧ c.2 ≠ p.resetByte c.1

/-- `M[a]` (20_memory R52). -/
def State.readByte (s : State) (a : Nat) : Byte := Memory.read s.params s.mem a

/-- `M[a] <- x` (20_memory R52); callers check the range first. -/
def State.writeByte (s : State) (a : Nat) (x : Byte) : State :=
  { s with mem := Memory.write s.params s.mem a x }

/-- The `n` bytes at `a`, `a + 1`, ... (20_memory R53). -/
def State.readBytes (s : State) (a n : Nat) : List Byte := (List.range n).map fun k => s.readByte (a + k)

/-- Stores bytes at `a`, `a + 1`, ..., in order (20_memory R53). -/
def State.writeBytes : State → Nat → List Byte → State
  | s, _, [] => s
  | s, a, x :: xs => (s.writeByte a x).writeBytes (a + 1) xs

/-- All `n` byte addresses from `a` on exist; an access of no bytes is always in range (20_memory R52, R66). -/
def inRange (a n : Nat) : Bool := decide (n = 0 ∨ a + n ≤ 4096)

/-- The lowest address out of range of an access at `a` that leaves memory (60_exceptions R187). -/
def firstOutside (a : Word) : Nat := max a.toNat 0x1000

/-- The `n` bytes at I, if all of them exist: checked as a whole before any is read (20_memory R55, 92 D12, D19). -/
def State.loadAtI (s : State) (n : Nat) : Option (List Byte) :=
  if inRange s.i.toNat n then some (s.readBytes s.i.toNat n) else none

/-- Stores bytes at I, if all the addresses exist: checked as a whole before any is written (20_memory R55, 92 D19). -/
def State.storeAtI (s : State) (xs : List Byte) : Option State :=
  if inRange s.i.toNat xs.length then some (s.writeBytes s.i.toNat xs) else none

/-! ### Registers, timers, display, PC -/

/-- `V[x]` (10_state R21). -/
def State.readV (s : State) (x : Reg) : Byte := s.v[x.toNat]'x.isLt

/-- `V[x] <- a` (10_state R21). -/
def State.writeV (s : State) (x : Reg) (a : Byte) : State := { s with v := s.v.set x.toNat a x.isLt }

/-- `I <- a` (10_state R23). -/
def State.writeI (s : State) (a : Word) : State := { s with i := a }

/-- `PC <- a` (10_state R24). -/
def State.writePc (s : State) (a : Word) : State := { s with pc := a }

/-- `DT <- a` (10_state R28). -/
def State.writeDt (s : State) (a : Byte) : State := { s with dt := a }

/-- `ST <- a` (10_state R28). -/
def State.writeSt (s : State) (a : Byte) : State := { s with st := a }

/-- `D <- d` (10_state R29). -/
def State.writeDisplay (s : State) (d : Display) : State := { s with display := d }

/-- The fetch's advance of PC past the instruction, before it executes (10_state R24, 40_control_flow R100). -/
def State.advance (s : State) : State := s.writePc (s.pc + 2)

/-- A conditional skip: the advanced PC, plus 2 more if the condition holds (40_control_flow section 3). -/
def State.advanceSkipping (s : State) (skip : Bool) : State := if skip then s.advance.advance else s.advance

/-- Commits a flag and then a result, in that order, so that the result stands when x = 0xF (00_scope R10, 41 R120). -/
def State.commitFlagThenResult (s : State) (x : Reg) (flag result : Byte) : State :=
  (s.writeV flagReg flag).writeV x result

/-! ### The call stack (10_state R25 to R27) -/

/-- The push primitive; `none` when all 16 slots are occupied (10_state R26). -/
def State.push (s : State) (a : Word) : Option State :=
  if h : s.sp.val < 16 then some { s with sp := ⟨s.sp.val + 1, by omega⟩, stack := s.stack.set s.sp.val a h }
  else none

/-- The pop primitive: the top slot's value, and the state with the slot cleared; `none` when empty (10_state R27). -/
def State.pop (s : State) : Option (Word × State) :=
  if h : 0 < s.sp.val then
    have top : s.sp.val - 1 < 16 := by omega
    some (s.stack[s.sp.val - 1],
      { s with sp := ⟨s.sp.val - 1, by omega⟩, stack := s.stack.set (s.sp.val - 1) 0x0000 top })
  else none

/-! ### Raising a fault (60_exceptions R180): the step ends, no state changes -/

/-- A fault at fetch (60_exceptions R182). -/
def raiseFetchOutOfBounds (s : State) : Fault := .fetchOutOfBounds s.pc (firstOutside s.pc)

/-- A fault of an instruction's execution: it reports pc0, where the instruction stands, and its word (60_exceptions R180).
`s` is the state at the start of the step, so its PC is pc0. -/
def raiseAt (cause : Word → Word → Fault) (i : Instr) (s : State) : Result := .fault (cause s.pc (encode i))

/-- A data access at I that leaves memory (60_exceptions R187). -/
def raiseMemOutOfBounds (i : Instr) (s : State) : Result :=
  raiseAt (fun pc0 word => .memOutOfBounds pc0 word (firstOutside s.i)) i s

/-! ### Fetch, and the inputs of the next step -/

/-- The fetch: the two bytes at PC as a big-endian word, or the fault (40_control_flow R100, 60_exceptions R182). -/
def State.fetch (s : State) : Except Fault Word :=
  if s.pc.toNat + 1 ≤ 0xFFF then .ok (wordOfBytes (s.readByte s.pc.toNat) (s.readByte (s.pc.toNat + 1)))
  else .error (raiseFetchOutOfBounds s)

/-- After a step the next one has inputs of its own, free values both (00_scope R6, R9). Logs 4, 5, 6. -/
def State.drawInputs (s : State) : State :=
  { s with rnd := Config.rnd s.inputs, keys := Config.keys s.inputs, inputs := s.inputs + 1 }

/-- Applies a function to the next state, if there is one. -/
def onNext (f : State → State) : Result → Result
  | .next s => .next (f s)
  | .fault r => .fault r
  | .refused r => .refused r

/-- Stores a word's two bytes where the next step fetches them (20_memory R53); nothing at a PC that cannot be fetched. -/
def State.placeWord (s : State) (w : Word) : State :=
  if s.pc.toNat + 1 ≤ 0xFFF then s.writeBytes s.pc.toNat [highByte w, lowByte w] else s

end Sys2Proof.Machine
end

