-- ==== Sys2Proof/Machine/Operands.lean ====
section
/-! DEFINITION. The operand forms that are more than a register or an immediate. -/

namespace Sys2Proof.Machine

open Sys2Proof

/-- The source of a shift: Vy, or Vx under QUIRK_SHIFT_VX (41_arithmetic_logic R129, R131). -/
def State.shiftSource (s : State) (x y : Reg) : Byte :=
  if s.params.quirkShiftVx then s.readV x else s.readV y

/-- The offset of Bnnn: V0, or Vx with x = nnn[11:8] under QUIRK_JUMP_VX (40_control_flow R108). PRESUMED which register the
alternate adds: log 21. -/
def State.jumpOffset (s : State) (nnn : Addr) : Byte :=
  if s.params.quirkJumpVx then s.readV (nnn.extractLsb' 8 4) else s.readV 0x0

/-- The glyph address `FONT_BASE + 5 * a` (42_memory_index R142); at most 0x6AB, so 16 bits hold it. -/
def glyphAddress (p : Params) (a : Byte) : Word := BitVec.ofNat 16 (p.fontBase.val + 5 * a.toNat)

/-- The decimal digits of a byte: hundreds, tens, ones (42_memory_index R143). -/
def decimalDigits (a : Byte) : List Byte :=
  [BitVec.ofNat 8 (a.toNat / 100), BitVec.ofNat 8 (a.toNat / 10 % 10), BitVec.ofNat 8 (a.toNat % 10)]

/-- The values of V0 to Vx, in order (42_memory_index R144). -/
def State.registersThrough (s : State) (x : Reg) : List Byte := s.v.toList.take (x.toNat + 1)

/-- V0, V1, ... take the given bytes in order; the registers past them keep theirs (42_memory_index R145). -/
def State.loadRegisters (s : State) (xs : List Byte) : State :=
  { s with v := Vector.ofFn fun k : Fin 16 => xs.getD k.val s.v[k] }

/-- I after Fx55 and Fx65: past the last byte, or unchanged under QUIRK_LOADSTORE_KEEP_I (42_memory_index R144, R145). -/
def State.stepI (s : State) (x : Reg) : State :=
  if s.params.quirkLoadStoreKeepI then s else s.writeI (BitVec.ofNat 16 (s.i.toNat + x.toNat + 1))

/-- The level of the key that the low nibble of `a` selects (44_timers_keypad R173, R174). PRESUMED: log 20. -/
def State.keyDown (s : State) (a : Byte) : Bool := s.keys.getLsbD (a.toNat % 16)

/-- The least key that is down, if any is (44_timers_keypad R175). PRESUMED: log 20. -/
def leastKeyDown (keys : BitVec 16) : Option Nat := (List.range 16).find? fun k => keys.getLsbD k

end Sys2Proof.Machine
end

