-- ==== Sys2Proof/Machine/Arithmetic.lean ====
section
/-! DEFINITION. The load-immediate, arithmetic, logic, shift and random instructions (41_arithmetic_logic). Operands are read
from `s`, the state at the start of the step, so a source VF is the old VF (R120). -/

namespace Sys2Proof.Machine

open Sys2Proof

/-- 6xnn `LD Vx, nn` (41_arithmetic_logic R121). -/
def execLdImm (x : Reg) (nn : Byte) (s : State) : Result := .next (s.advance.writeV x nn)

/-- 7xnn `ADD Vx, nn` (41_arithmetic_logic R122): wraps, writes no flag. -/
def execAddImm (x : Reg) (nn : Byte) (s : State) : Result := .next (s.advance.writeV x (s.readV x + nn))

/-- 8xy0 `LD Vx, Vy` (41_arithmetic_logic R123). -/
def execLdReg (x y : Reg) (s : State) : Result := .next (s.advance.writeV x (s.readV y))

/-- 8xy1 `OR Vx, Vy` (41_arithmetic_logic R124): no flag. -/
def execOrReg (x y : Reg) (s : State) : Result := .next (s.advance.writeV x (s.readV x ||| s.readV y))

/-- 8xy2 `AND Vx, Vy` (41_arithmetic_logic R125): no flag. -/
def execAndReg (x y : Reg) (s : State) : Result := .next (s.advance.writeV x (s.readV x &&& s.readV y))

/-- 8xy3 `XOR Vx, Vy` (41_arithmetic_logic R126): no flag. -/
def execXorReg (x y : Reg) (s : State) : Result := .next (s.advance.writeV x (s.readV x ^^^ s.readV y))

/-- 8xy4 `ADD Vx, Vy` (41_arithmetic_logic R127). -/
def execAddReg (x y : Reg) (s : State) : Result :=
  .next (s.advance.commitFlagThenResult x (carryFlag (s.readV x) (s.readV y)) (s.readV x + s.readV y))

/-- 8xy5 `SUB Vx, Vy` (41_arithmetic_logic R128). -/
def execSubReg (x y : Reg) (s : State) : Result :=
  .next (s.advance.commitFlagThenResult x (noBorrowFlag (s.readV x) (s.readV y)) (s.readV x - s.readV y))

/-- 8xy6 `SHR Vx, Vy` (41_arithmetic_logic R129): logical, by one. -/
def execShr (x y : Reg) (s : State) : Result :=
  .next (s.advance.commitFlagThenResult x (shiftedOutRight (s.shiftSource x y)) (s.shiftSource x y >>> 1))

/-- 8xy7 `SUBN Vx, Vy` (41_arithmetic_logic R130). -/
def execSubn (x y : Reg) (s : State) : Result :=
  .next (s.advance.commitFlagThenResult x (noBorrowFlag (s.readV y) (s.readV x)) (s.readV y - s.readV x))

/-- 8xyE `SHL Vx, Vy` (41_arithmetic_logic R131): by one. -/
def execShl (x y : Reg) (s : State) : Result :=
  .next (s.advance.commitFlagThenResult x (shiftedOutLeft (s.shiftSource x y)) (s.shiftSource x y <<< 1))

/-- Cxnn `RND Vx, nn` (41_arithmetic_logic R132): the step's random byte, a free value, under the mask. Log 4. -/
def execRnd (x : Reg) (nn : Byte) (s : State) : Result := .next (s.advance.writeV x (s.rnd &&& nn))

end Sys2Proof.Machine
end

