-- ==== Sys2Proof/Machine/Control.lean ====
section
/-! DEFINITION. The control-flow instructions (40_control_flow). In every meaning `s` is the state at the start of the step:
`s.pc` is pc0, and `s.advance` is the state the instruction executes in, with PC = pc0 + 2 (R100). -/

namespace Sys2Proof.Machine

open Sys2Proof

/-- 00EE `RET` (40_control_flow R101). -/
def execRet (s : State) : Result :=
  match s.pop with
  | some (target, popped) => .next (popped.writePc target)
  | none => raiseAt .stackUnderflow .ret s

/-- 1nnn `JP nnn` (40_control_flow R102). -/
def execJp (nnn : Addr) (s : State) : Result := .next (s.writePc (nnn.setWidth 16))

/-- 2nnn `CALL nnn` (40_control_flow R103): pushes the advanced PC. -/
def execCall (nnn : Addr) (s : State) : Result :=
  match s.push s.advance.pc with
  | some pushed => .next (pushed.writePc (nnn.setWidth 16))
  | none => raiseAt .stackOverflow (.call nnn) s

/-- 3xnn `SE Vx, nn` (40_control_flow R104). -/
def execSeImm (x : Reg) (nn : Byte) (s : State) : Result := .next (s.advanceSkipping (s.readV x == nn))

/-- 4xnn `SNE Vx, nn` (40_control_flow R105). -/
def execSneImm (x : Reg) (nn : Byte) (s : State) : Result := .next (s.advanceSkipping (s.readV x != nn))

/-- 5xy0 `SE Vx, Vy` (40_control_flow R106). -/
def execSeReg (x y : Reg) (s : State) : Result := .next (s.advanceSkipping (s.readV x == s.readV y))

/-- 9xy0 `SNE Vx, Vy` (40_control_flow R107). -/
def execSneReg (x y : Reg) (s : State) : Result := .next (s.advanceSkipping (s.readV x != s.readV y))

/-- Bnnn `JP V0, nnn` (40_control_flow R108): the sum is not reduced modulo 4096 and cannot overflow 16 bits. -/
def execJpV0 (nnn : Addr) (s : State) : Result :=
  .next (s.writePc (nnn.setWidth 16 + (s.jumpOffset nnn).setWidth 16))

end Sys2Proof.Machine
end

