-- ==== Sys2Proof/Machine/Graphics.lean ====
section
/-! DEFINITION. The graphics instructions (43_graphics). -/

namespace Sys2Proof.Machine

open Sys2Proof

/-- One sprite bit on its way to the display: the pixel it lands on and its value (43_graphics R161, R163). -/
structure Dot where
  row : Fin 32
  col : Fin 64
  bit : Bool
  deriving DecidableEq, Repr

/-- A coordinate along an axis of `size` pixels: reduced modulo the size when wrapping, dropped past the edge when clipping
(43_graphics R161). -/
def place (wrap : Bool) (size : Nat) [NeZero size] (pos : Nat) : Option (Fin size) :=
  if wrap then some (Fin.ofNat size pos) else if h : pos < size then some ⟨pos, h⟩ else none

/-- Bit `j` from the left of sprite row `k`, whose byte is `b`, drawn from column `x0` and row `y0`; bit 7 is leftmost
(43_graphics R161, R163). PRESUMED the bit order: log 14, unsafe. -/
def spriteDot (wrap : Bool) (x0 y0 : Nat) (b : Byte) (k j : Nat) : Option Dot :=
  match place wrap 32 (y0 + k), place wrap 64 (x0 + j) with
  | some r, some c => some ⟨r, c, b.getLsbD (7 - j)⟩
  | _, _ => none

/-- All the sprite's bits that land on the display, row by row, left to right (43_graphics R161). -/
def spriteDots (wrap : Bool) (x0 y0 : Nat) (rows : List Byte) : List Dot :=
  rows.zipIdx.flatMap fun bk => (List.range 8).filterMap fun j => spriteDot wrap x0 y0 bk.1 bk.2 j

/-- `D[r][c]` (10_state R29). -/
def pixel (d : Display) (r : Fin 32) (c : Fin 64) : Bool := d[r.val][c.val]

/-- `D[r][c] <- b` (10_state R29). -/
def setPixel (d : Display) (r : Fin 32) (c : Fin 64) (b : Bool) : Display :=
  d.set r.val (d[r.val].set c.val b)

/-- Some lit sprite bit meets a lit pixel (43_graphics R161). -/
def collides (d : Display) (dots : List Dot) : Bool := dots.any fun t => t.bit && pixel d t.row t.col

/-- The display after the draw: each dot XORs the pixel's value before this draw (43_graphics R161, Dnew). -/
def plot (d : Display) (dots : List Dot) : Display :=
  dots.foldl (fun dnew t => setPixel dnew t.row t.col (pixel d t.row t.col ^^ t.bit)) d

/-- 00E0 `CLS` (43_graphics R160). -/
def execCls (s : State) : Result :=
  .next (s.advance.writeDisplay (Vector.replicate 32 (Vector.replicate 64 false)))

/-- Dxyn `DRW Vx, Vy, n` (43_graphics R161): read all, then VF, then the display. -/
def execDrw (x y : Reg) (n : Nibble) (s : State) : Result :=
  match s.loadAtI n.toNat with
  | some rows =>
    let dots := spriteDots s.params.drawWrap ((s.readV x).toNat % 64) ((s.readV y).toNat % 32) rows
    .next ((s.advance.writeV flagReg (flagByte (collides s.display dots))).writeDisplay (plot s.display dots))
  | none => raiseMemOutOfBounds (.drw x y n) s

end Sys2Proof.Machine
end

