-- ==== Sys2Proof/Machine/Index.lean ====
section
/-! DEFINITION. The index-register and memory instructions (42_memory_index). -/

namespace Sys2Proof.Machine

open Sys2Proof

/-- Annn `LD I, nnn` (42_memory_index R140). -/
def execLdI (nnn : Addr) (s : State) : Result := .next (s.advance.writeI (nnn.setWidth 16))

/-- Fx1E `ADD I, Vx` (42_memory_index R141): VF is the range flag, the result goes to I, not masked to 12 bits.
DESIGN CHOICE of the spec, D14: log 17. -/
def execAddIVx (x : Reg) (s : State) : Result :=
  let sum := s.i.toNat + (s.readV x).toNat
  .next ((s.advance.writeV flagReg (rangeFlag sum)).writeI (BitVec.ofNat 16 sum))

/-- Fx29 `LD F, Vx` (42_memory_index R142): the whole byte is used, no masking to a digit (D26, log 18). -/
def execLdFVx (x : Reg) (s : State) : Result := .next (s.advance.writeI (glyphAddress s.params (s.readV x)))

/-- Fx33 `LD B, Vx` (42_memory_index R143): I is unchanged. -/
def execLdBVx (x : Reg) (s : State) : Result :=
  match s.advance.storeAtI (decimalDigits (s.readV x)) with
  | some stored => .next stored
  | none => raiseMemOutOfBounds (.ldBVx x) s

/-- Fx55 `LD [I], Vx` (42_memory_index R144). -/
def execLdMemVx (x : Reg) (s : State) : Result :=
  match s.advance.storeAtI (s.registersThrough x) with
  | some stored => .next (stored.stepI x)
  | none => raiseMemOutOfBounds (.ldMemVx x) s

/-- Fx65 `LD Vx, [I]` (42_memory_index R145). -/
def execLdVxMem (x : Reg) (s : State) : Result :=
  match s.loadAtI (x.toNat + 1) with
  | some bytes => .next ((s.advance.loadRegisters bytes).stepI x)
  | none => raiseMemOutOfBounds (.ldVxMem x) s

end Sys2Proof.Machine
end

