-- ==== Sys2Proof/Machine/TimerKeypad.lean ====
section
/-! DEFINITION. The timer and keypad instructions (44_timers_keypad). -/

namespace Sys2Proof.Machine

open Sys2Proof

/-- Ex9E `SKP Vx` (44_timers_keypad R173). -/
def execSkp (x : Reg) (s : State) : Result :=
  if s.params.keypadPresent then .next (s.advanceSkipping (s.keyDown (s.readV x)))
  else raiseAt .unsupportedOperation (.skp x) s

/-- ExA1 `SKNP Vx` (44_timers_keypad R174). -/
def execSknp (x : Reg) (s : State) : Result :=
  if s.params.keypadPresent then .next (s.advanceSkipping (!s.keyDown (s.readV x)))
  else raiseAt .unsupportedOperation (.sknp x) s

/-- Fx07 `LD Vx, DT` (44_timers_keypad R170). -/
def execLdVxDt (x : Reg) (s : State) : Result := .next (s.advance.writeV x s.dt)

/-- Fx0A `LD Vx, K` (44_timers_keypad R175): with no key down PC goes back to the instruction. -/
def execLdVxK (x : Reg) (s : State) : Result :=
  if s.params.keypadPresent then
    match leastKeyDown s.keys with
    | some k => .next (s.advance.writeV x (BitVec.ofNat 8 k))
    | none => .next (s.advance.writePc s.pc)
  else raiseAt .unsupportedOperation (.ldVxK x) s

/-- Fx15 `LD DT, Vx` (44_timers_keypad R171). -/
def execLdDtVx (x : Reg) (s : State) : Result := .next (s.advance.writeDt (s.readV x))

/-- Fx18 `LD ST, Vx` (44_timers_keypad R172). -/
def execLdStVx (x : Reg) (s : State) : Result := .next (s.advance.writeSt (s.readV x))

end Sys2Proof.Machine
end

