-- ==== Sys2Proof/Machine/Step.lean ====
section
/-! DEFINITION. One step of the core: fetch, decode, execute (40_control_flow R100). -/

namespace Sys2Proof.Machine

open Sys2Proof

/-- The step as a function of the state and the two inputs it holds (00_scope R9, 40_control_flow R100): the fetch's fault,
else decode's, else the instruction's own outcome; the next state has inputs of its own for the next step. -/
def step (s : State) : Host.Outcome State Fault Refusal :=
  match s.fetch with
  | .error f => .fault f
  | .ok word =>
    match decodeWord word with
    | .error _ => .fault (.illegalInstruction s.pc word)
    | .ok i => onNext State.drawInputs (exec i s)

/-- The state with the instruction whose table bits are `w` stored where the next step fetches it; it stands for the
driver's `load` (70_reset_and_hazards R212). Log 13. -/
def State.withFetchWord (s : State) (nbits w : Nat) : State := s.placeWord (tableWord nbits w)

end Sys2Proof.Machine
end

