-- ==== Sys2Proof/Machine/Driver.lean ====
section
/-! DEFINITION. The driver's operations (70_reset_and_hazards R217) and runs that interleave them with steps (R219). -/

namespace Sys2Proof.Machine

open Sys2Proof

/-- `reset()`: every piece of state takes its reset value (70_reset_and_hazards R210). The parameters are no state and stay;
so do the inputs of the coming step, which are no state either (00_scope R6). Log 26. -/
def State.driverReset (s : State) : State := State.resetWith s.params s.rnd s.keys s.inputs

/-- The result of `load` (20_memory R64): code 0 or code 7 (60_exceptions R188). -/
inductive LoadResult where
  /-- the image is in memory -/
  | ok (s : State)
  /-- LoadOverflow, code 7: the image does not fit, nothing is written. Safe. -/
  | loadOverflow
  deriving DecidableEq, Repr

/-- The code of a `load`'s result (60_exceptions R181, R188). -/
def LoadResult.code : LoadResult → Nat
  | .ok _ => 0
  | .loadOverflow => 7

/-- `load(bytes, base)`: writes memory only, or nothing at all (20_memory R64, 92_eei_decisions D18). Log 25. -/
def State.load (s : State) (bytes : List Byte) (base : Nat) : LoadResult :=
  if 4096 < base + bytes.length then .loadOverflow else .ok (s.writeBytes base bytes)

/-- One decrement that stops at zero (60_exceptions R194). PRESUMED the floor: D17, log 24. -/
def tickDown (a : Byte) : Byte := if a = 0 then 0 else a - 1

/-- `tick()` (60_exceptions R194). -/
def State.tick (s : State) : State := { s with dt := tickDown s.dt, st := tickDown s.st }

/-- `read_display()`: the 2048 pixel values, row by row (20_memory R65); no side effect. -/
def State.readDisplay (s : State) : List (List Bool) := s.display.toList.map fun row => row.toList

/-- `read_DT()` (60_exceptions R195). -/
def State.readDt (s : State) : Byte := s.dt

/-- `read_ST()` (60_exceptions R195). -/
def State.readSt (s : State) : Byte := s.st

/-- The inputs of the next step, as the outside world gives them (00_scope R6, 44_timers_keypad R176): no effect on the
spec's state. -/
def State.deliver (s : State) (rnd : Byte) (keys : BitVec 16) : State := { s with rnd := rnd, keys := keys }

/-- The spec's step as a function of the state and the two inputs (00_scope R9). -/
def stepWith (rnd : Byte) (keys : BitVec 16) (s : State) : Result := step (s.deliver rnd keys)

/-- What happens between two points of a run: one step of the core or one operation of the driver (70 R217). The reads have
no effect and are left out. -/
inductive Action where
  | step
  | reset
  | load (bytes : List Byte) (base : Nat)
  | writeDt (a : Byte)
  | writeSt (a : Byte)
  | tick
  | deliver (rnd : Byte) (keys : BitVec 16)
  deriving DecidableEq, Repr

/-- One action. A `load` that overflows leaves the state as it was (20_memory R64). -/
def Action.perform : Action → State → Result
  | .step, s => Sys2Proof.Machine.step s
  | .reset, s => .next s.driverReset
  | .load bytes base, s =>
    match s.load bytes base with
    | .ok s' => .next s'
    | .loadOverflow => .next s
  | .writeDt a, s => .next (s.writeDt a)
  | .writeSt a, s => .next (s.writeSt a)
  | .tick, s => .next s.tick
  | .deliver rnd keys, s => .next (s.deliver rnd keys)

/-- A run under a schedule of both agents' actions; a fault ends it (60_exceptions R180, 70 R218, R219). -/
def runSchedule : List Action → State → Result
  | [], s => .next s
  | a :: as, s =>
    match a.perform s with
    | .next s' => runSchedule as s'
    | .fault r => .fault r
    | .refused r => .refused r

end Sys2Proof.Machine
end

