-- ==== Sys2Proof/Safety.lean ====
section
/-! DEFINITION. What counts as a safe state and a safe run, and the spec's own tables of what each instruction may touch,
in the terms the statements use. -/

namespace Sys2Proof.Machine

open Sys2Proof

/-! ### The invariant -/

/-- The stack of a state that a run reaches (10_state R36): an occupied slot holds `pc0 + 2` of some CALL, at most 0x1000; a
free slot holds 0. -/
def State.stackOk (s : State) : Prop :=
  ∀ k : Fin 16, if k.val < s.sp.val then 2 ≤ s.stack[k.val].toNat ∧ s.stack[k.val].toNat ≤ 0x1000
    else s.stack[k.val] = 0

/-- PC in a state that a run reaches: at most 0x10FE (10_state R24). -/
def State.pcOk (s : State) : Prop := s.pc.toNat ≤ 0x10FE

/-- The invariant of the machine: memory in its canonical form, the stack and PC as 10_state R36 and R24 say. -/
structure State.Inv (s : State) : Prop where
  mem : Memory.wf s.params s.mem
  stack : s.stackOk
  pc : s.pcOk

/-! ### Outcomes -/

/-- The numeric code of a fault (60_exceptions R181). -/
def Fault.code : Fault → Nat
  | .fetchOutOfBounds .. => 1
  | .illegalInstruction .. => 2
  | .unsupportedOperation .. => 3
  | .stackOverflow .. => 4
  | .stackUnderflow .. => 5
  | .memOutOfBounds .. => 6

/-- The code of a step's outcome; 0 means "no fault" (60_exceptions R181). -/
def outcomeCode : Result → Nat
  | .next _ => 0
  | .fault f => f.code
  | .refused _ => 0

/-- The address of the faulting instruction (60_exceptions R180). -/
def Fault.pc0 : Fault → Word
  | .fetchOutOfBounds pc0 _ => pc0
  | .illegalInstruction pc0 _ => pc0
  | .unsupportedOperation pc0 _ => pc0
  | .stackOverflow pc0 _ => pc0
  | .stackUnderflow pc0 _ => pc0
  | .memOutOfBounds pc0 _ _ => pc0

/-- The fetched word; absent for FetchOutOfBounds (60_exceptions R180). -/
def Fault.word : Fault → Option Word
  | .fetchOutOfBounds _ _ => none
  | .illegalInstruction _ word => some word
  | .unsupportedOperation _ word => some word
  | .stackOverflow _ word => some word
  | .stackUnderflow _ word => some word
  | .memOutOfBounds _ word _ => some word

/-- The lowest address out of range; absent but for the two out-of-bounds causes (60_exceptions R180). -/
def Fault.addr : Fault → Option Nat
  | .fetchOutOfBounds _ addr => some addr
  | .illegalInstruction _ _ => none
  | .unsupportedOperation _ _ => none
  | .stackOverflow _ _ => none
  | .stackUnderflow _ _ => none
  | .memOutOfBounds _ _ addr => some addr

/-- A program has ended: it stands at a jump to itself (70_reset_and_hazards R218, 92_eei_decisions D23). -/
def State.ended (s : State) : Prop :=
  s.pc.toNat ≤ 0xFFF ∧
    s.fetch = .ok (formatA 0x1 (s.pc.setWidth 12))

/-- A run that ends in a fault has gone wrong (60_exceptions R180, 70_reset_and_hazards R218). -/
def goneWrong (r : Result) : Prop := ∃ f, r = .fault f

/-! ### What a sprite lights (43_graphics R161) -/

/-- Along one axis, offset `k` from `start` is coordinate `pos`: modulo the size when wrapping, exactly when clipping. -/
def lands (wrap : Bool) (size start k pos : Nat) : Prop :=
  if wrap then (start + k) % size = pos else start + k = pos

/-- Executing `DRW Vx, Vy, n` in `s`, some 1 bit of the sprite lands on pixel (r, c): bit `7 - j` of sprite row `k`, the byte
at `I + k`, at column offset `j` and row offset `k` from (Vx mod 64, Vy mod 32). -/
def State.spriteLights (s : State) (x y : Reg) (n : Nibble) (r : Fin 32) (c : Fin 64) : Prop :=
  ∃ k j : Nat, k < n.toNat ∧ j < 8 ∧
    lands s.params.drawWrap 32 ((s.readV y).toNat % 32) k r.val ∧
    lands s.params.drawWrap 64 ((s.readV x).toNat % 64) j c.val ∧
    (s.readByte (s.i.toNat + k)).getLsbD (7 - j) = true

end Sys2Proof.Machine

/-! ### The spec's tables of accesses -/

namespace Sys2Proof

/-- The registers an instruction may write: the rows "writes" of 10_state R21's table. -/
def Instr.mayWriteV : Instr → Reg → Bool
  | .ldImm x _, k => k == x
  | .addImm x _, k => k == x
  | .ldReg x _, k => k == x
  | .orReg x _, k => k == x
  | .andReg x _, k => k == x
  | .xorReg x _, k => k == x
  | .addReg x _, k => k == x || k == flagReg
  | .subReg x _, k => k == x || k == flagReg
  | .shr x _, k => k == x || k == flagReg
  | .subn x _, k => k == x || k == flagReg
  | .shl x _, k => k == x || k == flagReg
  | .rnd x _, k => k == x
  | .drw _ _ _, k => k == flagReg
  | .ldVxDt x, k => k == x
  | .ldVxK x, k => k == x
  | .addIVx _, k => k == flagReg
  | .ldVxMem x, k => decide (k.toNat ≤ x.toNat)
  | .cls, _ => false
  | .ret, _ => false
  | .jp _, _ => false
  | .call _, _ => false
  | .seImm _ _, _ => false
  | .sneImm _ _, _ => false
  | .seReg _ _, _ => false
  | .sneReg _ _, _ => false
  | .ldI _, _ => false
  | .jpV0 _, _ => false
  | .skp _, _ => false
  | .sknp _, _ => false
  | .ldDtVx _, _ => false
  | .ldStVx _, _ => false
  | .ldFVx _, _ => false
  | .ldBVx _, _ => false
  | .ldMemVx _, _ => false

/-- How many bytes an instruction stores from I on: the column "Writes to M" of 20_memory R55's table. -/
def Instr.storeWidth : Instr → Nat
  | .ldBVx _ => 3
  | .ldMemVx x => x.toNat + 1
  | _ => 0

/-- The instructions that write I (10_state R23). -/
def Instr.mayWriteI : Instr → Bool
  | .ldI _ | .addIVx _ | .ldFVx _ | .ldMemVx _ | .ldVxMem _ => true
  | _ => false

/-- The instructions that use the call stack (10_state R26, R27). -/
def Instr.mayUseStack : Instr → Bool
  | .call _ | .ret => true
  | _ => false

/-- The instructions that write the display (10_state R29). -/
def Instr.mayWriteDisplay : Instr → Bool
  | .cls | .drw .. => true
  | _ => false

/-- PC after a step that does not fault, from the state at its start: 10_state R24's table. -/
def Instr.pcAfter (i : Instr) (s : Machine.State) : Word :=
  match i with
  | .jp nnn => nnn.setWidth 16
  | .call nnn => nnn.setWidth 16
  | .ret => s.stack[s.sp.val - 1]
  | .jpV0 nnn => BitVec.ofNat 16 (nnn.toNat +
      (s.readV (if s.params.quirkJumpVx then nnn.extractLsb' 8 4 else 0x0)).toNat)
  | .seImm x nn => if s.readV x = nn then s.pc + 4 else s.pc + 2
  | .sneImm x nn => if s.readV x ≠ nn then s.pc + 4 else s.pc + 2
  | .seReg x y => if s.readV x = s.readV y then s.pc + 4 else s.pc + 2
  | .sneReg x y => if s.readV x ≠ s.readV y then s.pc + 4 else s.pc + 2
  | .skp x => if s.keys.getLsbD ((s.readV x).toNat % 16) then s.pc + 4 else s.pc + 2
  | .sknp x => if s.keys.getLsbD ((s.readV x).toNat % 16) then s.pc + 2 else s.pc + 4
  | .ldVxK _ => if s.keys = 0 then s.pc else s.pc + 2
  | _ => s.pc + 2

/-- The causes an instruction's execution can fault with (60_exceptions R181, column "Raised by"). -/
def Instr.mayFaultWith : Instr → Nat → Bool
  | .skp _, c | .sknp _, c | .ldVxK _, c => c == 3
  | .call _, c => c == 4
  | .ret, c => c == 5
  | .drw .., c | .ldBVx _, c | .ldMemVx _, c | .ldVxMem _, c => c == 6
  | _, _ => false

end Sys2Proof
end

