-- ==== Sys2Proof/Certificates/Slice0/Obligations.lean ====
section
/-! DEFINITION. The statements for the provers. In every statement about an instruction, `s` is the state at the start of its
step, so `s.pc` is pc0, `V[x]` is `s.readV x` and `V[x] <- a` is `writeV x a`; an equation `exec i s = .next t` gives the
whole next state, so it is also the instruction's frame and says that the instruction completes. -/

open Sys2Proof Sys2Proof.Machine

/-! ### Control flow (40_control_flow) -/

/-- 40_control_flow R101, 60_exceptions R186: RET pops the top slot into PC, clears it and decrements SP; with SP = 0 it raises
StackUnderflow. -/
def Obligations.RetPopsOrUnderflows : Prop :=
  decodeWord 0x00EE = .ok .ret ∧
  ∀ s : State,
    (s.sp = 0 → exec .ret s = .fault (.stackUnderflow s.pc 0x00EE)) ∧
    (∀ top : Fin 16, s.sp.val = top.val + 1 →
      exec .ret s = .next { s with pc := s.stack[top.val], sp := top.castSucc, stack := s.stack.set top.val 0x0000 })

/-- 40_control_flow R102: JP sets PC to the zero-extended nnn. -/
def Obligations.JpSetsPc : Prop :=
  ∀ nnn : Addr, decodeWord (0x1#4 ++ nnn) = .ok (.jp nnn) ∧
  ∀ s : State, exec (.jp nnn) s = .next { s with pc := nnn.setWidth 16 }

/-- 40_control_flow R103, 60_exceptions R185: CALL pushes `pc0 + 2` and jumps; with SP = 16 it raises StackOverflow. -/
def Obligations.CallPushesOrOverflows : Prop :=
  ∀ nnn : Addr, decodeWord (0x2#4 ++ nnn) = .ok (.call nnn) ∧
  ∀ s : State,
    (s.sp = 16 → exec (.call nnn) s = .fault (.stackOverflow s.pc (0x2#4 ++ nnn))) ∧
    (∀ free : Fin 16, s.sp.val = free.val →
      exec (.call nnn) s =
        .next { s with pc := nnn.setWidth 16, sp := free.succ, stack := s.stack.set free.val (s.pc + 2) })

/-- 40_control_flow R104, R105: SE and SNE with an immediate skip the next instruction on equality and inequality. -/
def Obligations.SkipImmediate : Prop :=
  ∀ (x : Reg) (nn : Byte),
  decodeWord (0x3#4 ++ (x ++ nn)) = .ok (.seImm x nn) ∧ decodeWord (0x4#4 ++ (x ++ nn)) = .ok (.sneImm x nn) ∧
  ∀ s : State,
    exec (.seImm x nn) s = .next { s with pc := if s.readV x = nn then s.pc + 4 else s.pc + 2 } ∧
    exec (.sneImm x nn) s = .next { s with pc := if s.readV x ≠ nn then s.pc + 4 else s.pc + 2 }

/-- 40_control_flow R106, R107: SE and SNE with two registers. -/
def Obligations.SkipRegister : Prop :=
  ∀ x y : Reg,
  decodeWord (0x5#4 ++ (x ++ (y ++ 0x0#4))) = .ok (.seReg x y) ∧
  decodeWord (0x9#4 ++ (x ++ (y ++ 0x0#4))) = .ok (.sneReg x y) ∧
  ∀ s : State,
    exec (.seReg x y) s = .next { s with pc := if s.readV x = s.readV y then s.pc + 4 else s.pc + 2 } ∧
    exec (.sneReg x y) s = .next { s with pc := if s.readV x ≠ s.readV y then s.pc + 4 else s.pc + 2 }

/-- 40_control_flow R108: Bnnn adds V0 to nnn, or Vx with x = nnn[11:8] under QUIRK_JUMP_VX, with no reduction of the sum to
12 bits. The alternate's register is the spec's decision D13 (log 21). -/
def Obligations.JpV0AddsOffset : Prop :=
  ∀ nnn : Addr, decodeWord (0xB#4 ++ nnn) = .ok (.jpV0 nnn) ∧
  ∀ s : State,
    (s.params.quirkJumpVx = false →
      exec (.jpV0 nnn) s = .next { s with pc := BitVec.ofNat 16 (nnn.toNat + (s.readV 0x0).toNat) }) ∧
    (s.params.quirkJumpVx = true →
      exec (.jpV0 nnn) s =
        .next { s with pc := BitVec.ofNat 16 (nnn.toNat + (s.readV (nnn.extractLsb' 8 4)).toNat) })

/-- Source example S5 (95_test_vectors): CALL then RET comes back to the instruction after the CALL, with SP as before and the
slot used cleared. -/
def Obligations.CallThenRetRoundTrip : Prop :=
  ∀ (nnn : Addr) (s : State) (free : Fin 16), s.sp.val = free.val →
    ∃ t, exec (.call nnn) s = .next t ∧
      exec .ret t = .next { s with pc := s.pc + 2, stack := s.stack.set free.val 0x0000 }

/-! ### Load-immediate, arithmetic, logic, shift, random (41_arithmetic_logic) -/

/-- 41_arithmetic_logic R121: LD Vx, nn. -/
def Obligations.LdImmWritesVx : Prop :=
  ∀ (x : Reg) (nn : Byte), decodeWord (0x6#4 ++ (x ++ nn)) = .ok (.ldImm x nn) ∧
  ∀ s : State, exec (.ldImm x nn) s = .next ({ s with pc := s.pc + 2 }.writeV x nn)

/-- 41_arithmetic_logic R122: ADD Vx, nn wraps modulo 256 and writes no flag. -/
def Obligations.AddImmWrapsWithoutFlag : Prop :=
  ∀ (x : Reg) (nn : Byte), decodeWord (0x7#4 ++ (x ++ nn)) = .ok (.addImm x nn) ∧
  ∀ s : State, exec (.addImm x nn) s =
    .next ({ s with pc := s.pc + 2 }.writeV x (BitVec.ofNat 8 ((s.readV x).toNat + nn.toNat)))

/-- 41_arithmetic_logic R123: LD Vx, Vy. -/
def Obligations.LdRegCopies : Prop :=
  ∀ x y : Reg, decodeWord (0x8#4 ++ (x ++ (y ++ 0x0#4))) = .ok (.ldReg x y) ∧
  ∀ s : State, exec (.ldReg x y) s = .next ({ s with pc := s.pc + 2 }.writeV x (s.readV y))

/-- 41_arithmetic_logic R124, R125, R126: OR, AND and XOR write Vx bit by bit and leave VF alone unless x = 0xF. -/
def Obligations.LogicIsBitwiseWithoutFlag : Prop :=
  ∀ x y : Reg,
  decodeWord (0x8#4 ++ (x ++ (y ++ 0x1#4))) = .ok (.orReg x y) ∧
  decodeWord (0x8#4 ++ (x ++ (y ++ 0x2#4))) = .ok (.andReg x y) ∧
  decodeWord (0x8#4 ++ (x ++ (y ++ 0x3#4))) = .ok (.xorReg x y) ∧
  ∀ s : State, ∃ o a e : Byte,
    exec (.orReg x y) s = .next ({ s with pc := s.pc + 2 }.writeV x o) ∧
    exec (.andReg x y) s = .next ({ s with pc := s.pc + 2 }.writeV x a) ∧
    exec (.xorReg x y) s = .next ({ s with pc := s.pc + 2 }.writeV x e) ∧
    ∀ k : Nat,
      o.getLsbD k = ((s.readV x).getLsbD k || (s.readV y).getLsbD k) ∧
      a.getLsbD k = ((s.readV x).getLsbD k && (s.readV y).getLsbD k) ∧
      e.getLsbD k = ((s.readV x).getLsbD k ^^ (s.readV y).getLsbD k)

/-- 41_arithmetic_logic R127: ADD Vx, Vy writes the carry to VF, then the sum to Vx. -/
def Obligations.AddRegCarries : Prop :=
  ∀ x y : Reg, decodeWord (0x8#4 ++ (x ++ (y ++ 0x4#4))) = .ok (.addReg x y) ∧
  ∀ s : State, exec (.addReg x y) s =
    .next (({ s with pc := s.pc + 2 }.writeV 0xF (if 255 < (s.readV x).toNat + (s.readV y).toNat then 1 else 0)).writeV x
      (BitVec.ofNat 8 ((s.readV x).toNat + (s.readV y).toNat)))

/-- 41_arithmetic_logic R128: SUB Vx, Vy writes "no borrow" to VF, then the difference modulo 256 to Vx. -/
def Obligations.SubRegBorrows : Prop :=
  ∀ x y : Reg, decodeWord (0x8#4 ++ (x ++ (y ++ 0x5#4))) = .ok (.subReg x y) ∧
  ∀ s : State, exec (.subReg x y) s =
    .next (({ s with pc := s.pc + 2 }.writeV 0xF (if (s.readV y).toNat ≤ (s.readV x).toNat then 1 else 0)).writeV x
      (BitVec.ofNat 8 ((s.readV x).toNat + 256 - (s.readV y).toNat)))

/-- 41_arithmetic_logic R130: SUBN Vx, Vy subtracts the other way round. -/
def Obligations.SubnBorrows : Prop :=
  ∀ x y : Reg, decodeWord (0x8#4 ++ (x ++ (y ++ 0x7#4))) = .ok (.subn x y) ∧
  ∀ s : State, exec (.subn x y) s =
    .next (({ s with pc := s.pc + 2 }.writeV 0xF (if (s.readV x).toNat ≤ (s.readV y).toNat then 1 else 0)).writeV x
      (BitVec.ofNat 8 ((s.readV y).toNat + 256 - (s.readV x).toNat)))

/-- 41_arithmetic_logic R129: SHR shifts Vy (Vx under QUIRK_SHIFT_VX) right by one into Vx and the bit shifted out into VF.
The quirk is the spec's decision D13 (log 3). -/
def Obligations.ShrShiftsOneRight : Prop :=
  ∀ x y : Reg, decodeWord (0x8#4 ++ (x ++ (y ++ 0x6#4))) = .ok (.shr x y) ∧
  ∀ (s : State) (a : Byte), a = (if s.params.quirkShiftVx then s.readV x else s.readV y) →
    exec (.shr x y) s =
      .next (({ s with pc := s.pc + 2 }.writeV 0xF (BitVec.ofNat 8 (a.toNat % 2))).writeV x
        (BitVec.ofNat 8 (a.toNat / 2)))

/-- 41_arithmetic_logic R131: SHL shifts Vy (Vx under QUIRK_SHIFT_VX) left by one into Vx and the bit shifted out into VF. The
quirk is the spec's decision D13 (log 3). -/
def Obligations.ShlShiftsOneLeft : Prop :=
  ∀ x y : Reg, decodeWord (0x8#4 ++ (x ++ (y ++ 0xE#4))) = .ok (.shl x y) ∧
  ∀ (s : State) (a : Byte), a = (if s.params.quirkShiftVx then s.readV x else s.readV y) →
    exec (.shl x y) s =
      .next (({ s with pc := s.pc + 2 }.writeV 0xF (BitVec.ofNat 8 (a.toNat / 128))).writeV x
        (BitVec.ofNat 8 (2 * a.toNat)))

/-- 41_arithmetic_logic R132: RND writes the step's random byte under the mask; the byte is a free value (log 4), so the
statement holds for every one. -/
def Obligations.RndMasksInput : Prop :=
  ∀ (x : Reg) (nn : Byte), decodeWord (0xC#4 ++ (x ++ nn)) = .ok (.rnd x nn) ∧
  ∀ (s : State) (rnd : Byte),
    exec (.rnd x nn) { s with rnd := rnd } = .next ({ s with rnd := rnd, pc := s.pc + 2 }.writeV x (rnd &&& nn))

/-! ### Index register and memory (42_memory_index) -/

/-- 42_memory_index R140: LD I, nnn. -/
def Obligations.LdIWritesI : Prop :=
  ∀ nnn : Addr, decodeWord (0xA#4 ++ nnn) = .ok (.ldI nnn) ∧
  ∀ s : State, exec (.ldI nnn) s = .next { s with pc := s.pc + 2, i := nnn.setWidth 16 }

/-- 42_memory_index R141: ADD I, Vx writes the range flag to VF and the sum modulo 65536 to I. VF in range, and the comparison
on the untruncated sum, are the spec's decision D14 (log 17). -/
def Obligations.AddIFlagsRange : Prop :=
  ∀ x : Reg, decodeWord (0xF#4 ++ (x ++ 0x1E#8)) = .ok (.addIVx x) ∧
  ∀ s : State, exec (.addIVx x) s =
    .next ({ s with pc := s.pc + 2, i := BitVec.ofNat 16 (s.i.toNat + (s.readV x).toNat) }.writeV 0xF
      (if 0xFFF < s.i.toNat + (s.readV x).toNat then 1 else 0))

/-- 42_memory_index R142: LD F, Vx puts `FONT_BASE + 5 * V[x]` in I, exactly: the sum never wraps. No masking of V[x] is the
spec's decision D26 (log 18); FONT_BASE is open (log 1), so the statement holds for every admissible one. -/
def Obligations.LdFPointsAtGlyph : Prop :=
  ∀ x : Reg, decodeWord (0xF#4 ++ (x ++ 0x29#8)) = .ok (.ldFVx x) ∧
  ∀ s : State, ∃ a : Word, a.toNat = s.params.fontBase.val + 5 * (s.readV x).toNat ∧ a.toNat ≤ 0x6AB ∧
    exec (.ldFVx x) s = .next { s with pc := s.pc + 2, i := a }

/-- 42_memory_index R143: LD B, Vx stores the decimal digits of Vx at I, I + 1, I + 2 and changes no other byte. That nothing is
written when some address is out of range is decision D19 (log 22). -/
def Obligations.LdBStoresDigits : Prop :=
  ∀ x : Reg, decodeWord (0xF#4 ++ (x ++ 0x33#8)) = .ok (.ldBVx x) ∧
  ∀ s : State, s.i.toNat + 2 ≤ 0xFFF →
    ∃ t, exec (.ldBVx x) s = .next t ∧ t = { s with pc := s.pc + 2, mem := t.mem } ∧
      (t.readByte s.i.toNat).toNat = (s.readV x).toNat / 100 ∧
      (t.readByte (s.i.toNat + 1)).toNat = (s.readV x).toNat / 10 % 10 ∧
      (t.readByte (s.i.toNat + 2)).toNat = (s.readV x).toNat % 10 ∧
      ∀ a, (a < s.i.toNat ∨ s.i.toNat + 2 < a) → t.readByte a = s.readByte a

/-- 42_memory_index R144: LD [I], Vx stores V0 to Vx from I on, changes no other byte, and advances I by x + 1 unless
QUIRK_LOADSTORE_KEEP_I (decision D13, log 3). -/
def Obligations.StoreRegistersThroughVx : Prop :=
  ∀ x : Reg, decodeWord (0xF#4 ++ (x ++ 0x55#8)) = .ok (.ldMemVx x) ∧
  ∀ s : State, s.i.toNat + x.toNat ≤ 0xFFF →
    ∃ t, exec (.ldMemVx x) s = .next t ∧ t = { s with pc := s.pc + 2, mem := t.mem, i := t.i } ∧
      t.i.toNat = (if s.params.quirkLoadStoreKeepI then s.i.toNat else s.i.toNat + x.toNat + 1) ∧
      (∀ k : Reg, k.toNat ≤ x.toNat → t.readByte (s.i.toNat + k.toNat) = s.readV k) ∧
      ∀ a, (a < s.i.toNat ∨ s.i.toNat + x.toNat < a) → t.readByte a = s.readByte a

/-- 42_memory_index R145: LD Vx, [I] loads V0 to Vx from I on, leaves the registers above x, and advances I by x + 1 unless
QUIRK_LOADSTORE_KEEP_I (decision D13, log 3). -/
def Obligations.LoadRegistersThroughVx : Prop :=
  ∀ x : Reg, decodeWord (0xF#4 ++ (x ++ 0x65#8)) = .ok (.ldVxMem x) ∧
  ∀ s : State, s.i.toNat + x.toNat ≤ 0xFFF →
    ∃ t, exec (.ldVxMem x) s = .next t ∧ t = { s with pc := s.pc + 2, v := t.v, i := t.i } ∧
      t.i.toNat = (if s.params.quirkLoadStoreKeepI then s.i.toNat else s.i.toNat + x.toNat + 1) ∧
      ∀ k : Reg, t.readV k = if k.toNat ≤ x.toNat then s.readByte (s.i.toNat + k.toNat) else s.readV k

/-- 60_exceptions R187: Dxyn with n > 0, Fx33, Fx55 and Fx65 raise MemOutOfBounds when a byte of their range lies past 0xFFF,
with the lowest offending address, `max(I, 0x1000)`. The check of the whole range first is decision D12, D19 (logs 16, 22). -/
def Obligations.OutOfRangeAccessFaults : Prop :=
  ∀ (x y : Reg) (n : Nibble) (s : State),
    (0 < n.toNat → 0xFFF < s.i.toNat + n.toNat - 1 →
      exec (.drw x y n) s =
        .fault (.memOutOfBounds s.pc (0xD#4 ++ (x ++ (y ++ n))) (max s.i.toNat 0x1000))) ∧
    (0xFFF < s.i.toNat + 2 →
      exec (.ldBVx x) s = .fault (.memOutOfBounds s.pc (0xF#4 ++ (x ++ 0x33#8)) (max s.i.toNat 0x1000))) ∧
    (0xFFF < s.i.toNat + x.toNat →
      exec (.ldMemVx x) s = .fault (.memOutOfBounds s.pc (0xF#4 ++ (x ++ 0x55#8)) (max s.i.toNat 0x1000)) ∧
      exec (.ldVxMem x) s = .fault (.memOutOfBounds s.pc (0xF#4 ++ (x ++ 0x65#8)) (max s.i.toNat 0x1000)))

/-- 20_memory R60: the bytes that Fx55 stores are what a later fetch at those addresses reads, the lower one as the high byte. -/
def Obligations.StoreIsSeenByFetch : Prop :=
  ∀ (x : Reg) (s t : State) (k m : Reg), exec (.ldMemVx x) s = .next t →
    m.toNat = k.toNat + 1 → m.toNat ≤ x.toNat →
    { t with pc := s.i + k.setWidth 16 }.fetch = .ok (s.readV k ++ s.readV m)

/-! ### Graphics (43_graphics) -/

/-- 43_graphics R160: CLS sets every pixel to 0 and changes nothing else but PC. -/
def Obligations.ClsClearsDisplay : Prop :=
  decodeWord 0x00E0 = .ok .cls ∧
  ∀ s : State, ∃ t, exec .cls s = .next t ∧ t = { s with pc := s.pc + 2, display := t.display } ∧
    ∀ (r : Fin 32) (c : Fin 64), t.display[r.val][c.val] = false

/-- 43_graphics R161: when its bytes are in memory, DRW flips exactly the pixels that a 1 bit of the sprite lands on, writes VF
with 1 if some such pixel was 1 and with 0 otherwise, and changes nothing else but PC. Bit order, geometry and n = 0 are the
spec's decisions D9, D10, D12 (logs 14, 15, 16). -/
def Obligations.DrwXorsSpriteAndReportsCollision : Prop :=
  ∀ (x y : Reg) (n : Nibble), decodeWord (0xD#4 ++ (x ++ (y ++ n))) = .ok (.drw x y n) ∧
  ∀ s : State, (n.toNat = 0 ∨ s.i.toNat + n.toNat - 1 ≤ 0xFFF) →
    ∃ t flag, exec (.drw x y n) s = .next t ∧
      t = { s with pc := s.pc + 2, display := t.display }.writeV 0xF flag ∧
      (∀ (r : Fin 32) (c : Fin 64),
        (s.spriteLights x y n r c → t.display[r.val][c.val] = !s.display[r.val][c.val]) ∧
        (¬ s.spriteLights x y n r c → t.display[r.val][c.val] = s.display[r.val][c.val])) ∧
      ((∃ r c, s.spriteLights x y n r c ∧ s.display[r.val][c.val] = true) → flag = 1) ∧
      ((∀ r c, s.spriteLights x y n r c → s.display[r.val][c.val] = false) → flag = 0)

/-- 43_graphics R162: no two bits of one sprite land on the same pixel, wrapping or clipping. The 32 by 64 geometry is the
spec's decision D10 (log 15). -/
def Obligations.SpriteDotsNeverOverlap : Prop :=
  ∀ (wrap : Bool) (x0 y0 : Nat) (rows : List Byte), rows.length ≤ 15 →
    (spriteDots wrap x0 y0 rows).Pairwise fun d e => (d.row, d.col) ≠ (e.row, e.col)

/-- Source example S8 (95_test_vectors): drawing the same sprite twice at the same place restores the display, and the second
draw reports a collision if the first lit a pixel. Bit order, geometry and n = 0 are the spec's decisions D9, D10, D12
(logs 14, 15, 16). -/
def Obligations.DrawTwiceRestoresDisplay : Prop :=
  ∀ (x y : Reg) (n : Nibble) (s : State), x ≠ 0xF → y ≠ 0xF → (n.toNat = 0 ∨ s.i.toNat + n.toNat - 1 ≤ 0xFFF) →
    ∃ t u, exec (.drw x y n) s = .next t ∧ exec (.drw x y n) t = .next u ∧ u.display = s.display ∧
      ((∃ r c, s.spriteLights x y n r c ∧ s.display[r.val][c.val] = false) → u.readV 0xF = 1)

/-! ### Timers and keypad (44_timers_keypad, 60_exceptions) -/

/-- 44_timers_keypad R170: LD Vx, DT. -/
def Obligations.LdVxDtReadsTimer : Prop :=
  ∀ x : Reg, decodeWord (0xF#4 ++ (x ++ 0x07#8)) = .ok (.ldVxDt x) ∧
  ∀ s : State, exec (.ldVxDt x) s = .next ({ s with pc := s.pc + 2 }.writeV x s.dt)

/-- 44_timers_keypad R171, R172: LD DT, Vx and LD ST, Vx. -/
def Obligations.LdTimersFromVx : Prop :=
  ∀ x : Reg, decodeWord (0xF#4 ++ (x ++ 0x15#8)) = .ok (.ldDtVx x) ∧
  decodeWord (0xF#4 ++ (x ++ 0x18#8)) = .ok (.ldStVx x) ∧
  ∀ s : State,
    exec (.ldDtVx x) s = .next { s with pc := s.pc + 2, dt := s.readV x } ∧
    exec (.ldStVx x) s = .next { s with pc := s.pc + 2, st := s.readV x }

/-- 44_timers_keypad R173, R174, keypad present: SKP and SKNP skip by the level of the key that Vx's low nibble selects. The
low nibble is the spec's decision D16 (log 20). -/
def Obligations.KeySkipsWithKeypad : Prop :=
  ∀ x : Reg, decodeWord (0xE#4 ++ (x ++ 0x9E#8)) = .ok (.skp x) ∧ decodeWord (0xE#4 ++ (x ++ 0xA1#8)) = .ok (.sknp x) ∧
  ∀ s : State, s.params.keypadPresent = true →
    (s.keys.getLsbD ((s.readV x).toNat % 16) = true →
      exec (.skp x) s = .next { s with pc := s.pc + 4 } ∧ exec (.sknp x) s = .next { s with pc := s.pc + 2 }) ∧
    (s.keys.getLsbD ((s.readV x).toNat % 16) = false →
      exec (.skp x) s = .next { s with pc := s.pc + 2 } ∧ exec (.sknp x) s = .next { s with pc := s.pc + 4 })

/-- 44_timers_keypad R175, keypad present: LD Vx, K with no key down changes nothing at all; with some key down it writes the
least one to Vx. The details are the spec's decision D16 (log 20). -/
def Obligations.KeyWaitWithKeypad : Prop :=
  ∀ x : Reg, decodeWord (0xF#4 ++ (x ++ 0x0A#8)) = .ok (.ldVxK x) ∧
  ∀ s : State, s.params.keypadPresent = true →
    (s.keys = 0 → exec (.ldVxK x) s = .next s) ∧
    (∀ k : Nat, k < 16 → s.keys.getLsbD k = true → (∀ j, j < k → s.keys.getLsbD j = false) →
      exec (.ldVxK x) s = .next ({ s with pc := s.pc + 2 }.writeV x (BitVec.ofNat 8 k)))

/-- 60_exceptions R184: with no keypad the three key instructions raise UnsupportedOperation, whatever the keys. The signal
rather than a no-op is the spec's decision D16 (log 20). -/
def Obligations.KeyInstructionsFaultWithoutKeypad : Prop :=
  ∀ (x : Reg) (s : State), s.params.keypadPresent = false →
    exec (.skp x) s = .fault (.unsupportedOperation s.pc (0xE#4 ++ (x ++ 0x9E#8))) ∧
    exec (.sknp x) s = .fault (.unsupportedOperation s.pc (0xE#4 ++ (x ++ 0xA1#8))) ∧
    exec (.ldVxK x) s = .fault (.unsupportedOperation s.pc (0xF#4 ++ (x ++ 0x0A#8)))

/-! ### Frames over all instructions -/

/-- 10_state R21's table: an instruction that completes leaves every register that the table does not list for it. -/
def Obligations.RegistersOutsideTableUnchanged : Prop :=
  ∀ (i : Instr) (s t : State), exec i s = .next t → ∀ k : Reg, i.mayWriteV k = false → t.readV k = s.readV k

/-- 20_memory R55's table: an instruction that completes leaves every byte outside the `storeWidth` bytes from I on. -/
def Obligations.MemoryOutsideStoreUnchanged : Prop :=
  ∀ (i : Instr) (s t : State), exec i s = .next t →
    ∀ a, (a < s.i.toNat ∨ s.i.toNat + i.storeWidth ≤ a) → t.readByte a = s.readByte a

/-- 10_state R23, R25, R28, R29: I, the stack, the timers and the display change only by the instructions listed for them. -/
def Obligations.SpecialStateWrittenOnlyByItsOwn : Prop :=
  ∀ (i : Instr) (s t : State), exec i s = .next t →
    (i.mayWriteI = false → t.i = s.i) ∧
    (i.mayUseStack = false → t.sp = s.sp ∧ t.stack = s.stack) ∧
    ((∀ x, i ≠ .ldDtVx x) → t.dt = s.dt) ∧
    ((∀ x, i ≠ .ldStVx x) → t.st = s.st) ∧
    (i.mayWriteDisplay = false → t.display = s.display)

/-- 10_state R24's table: how every instruction that completes leaves PC. The register that the alternate Bnnn adds is the spec's
decision D13 (log 21, PRESUMED); the low nibble that selects the key of SKP and SKNP, and the waiting of LD Vx, K, are its
decision D16 (log 20, PRESUMED). -/
def Obligations.PcFollowsTable : Prop :=
  ∀ (i : Instr) (s t : State), exec i s = .next t → t.pc = i.pcAfter s

/-- 00_scope R5: the parameters are fixed for the machine, so a step changes none of them. -/
def Obligations.StepKeepsParameters : Prop :=
  ∀ s t : State, step s = .next t → t.params = s.params

/-- 10_state R28: no instruction reads ST, so a different ST changes nothing but ST in the outcome. -/
def Obligations.SoundTimerIsNeverRead : Prop :=
  ∀ (i : Instr) (s : State) (a : Byte), exec i { s with st := a } =
    match exec i s with
    | .next t => .next { t with st := match i with | .ldStVx _ => t.st | _ => a }
    | .fault f => .fault f
    | .refused r => .refused r

/-- 40_control_flow R100: a step uses `rnd` only if the instruction is Cxnn and `keys` only if it is Ex9E, ExA1 or Fx0A with
the keypad present. -/
def Obligations.InputsAreReadOnlyByTheirInstructions : Prop :=
  ∀ (i : Instr) (s : State) (rnd : Byte) (keys : BitVec 16),
    ((∀ x nn, i ≠ .rnd x nn) → exec i { s with rnd := rnd } = onNext (fun t => { t with rnd := rnd }) (exec i s)) ∧
    (((∀ x, i ≠ .skp x ∧ i ≠ .sknp x ∧ i ≠ .ldVxK x) ∨ s.params.keypadPresent = false) →
      exec i { s with keys := keys } = onNext (fun t => { t with keys := keys }) (exec i s))

/-! ### The step and its faults -/

/-- 40_control_flow R100: when the two bytes at PC decode to a well-formed instruction, the step is that instruction's
execution; the step adds only the inputs of the next step (logs 4, 5, 6). -/
def Obligations.StepRunsDecodedInstruction : Prop :=
  ∀ (s : State) (i : Instr), s.pc.toNat ≤ 0xFFE →
    decode [s.readByte s.pc.toNat, s.readByte (s.pc.toNat + 1)] = .ok (i, []) → i.WellFormed = true →
    step s = onNext (fun t => { t with rnd := Config.rnd t.inputs, keys := Config.keys t.inputs, inputs := t.inputs + 1 })
      (exec i s)

/-- 60_exceptions R182: a fetch at PC > 0xFFE faults and does not wrap. The payload, with the address `max(pc0, 0x1000)`, is that
of R180 and R181, the spec's decision D3 (log 11). -/
def Obligations.FetchPastMemoryFaults : Prop :=
  ∀ s : State, 0xFFF < s.pc.toNat + 1 → step s = .fault (.fetchOutOfBounds s.pc (max s.pc.toNat 0x1000))

/-- 60_exceptions R183, 30_encoding R86: a fetched word that selects no row of the opcode map faults. The spec's decisions D4,
D5 (log 19). -/
def Obligations.IllegalWordFaults : Prop :=
  ∀ s : State, s.pc.toNat ≤ 0xFFE →
    legalWord (s.readByte s.pc.toNat ++ s.readByte (s.pc.toNat + 1)) = false →
    step s = .fault (.illegalInstruction s.pc (s.readByte s.pc.toNat ++ s.readByte (s.pc.toNat + 1)))

/-- 60_exceptions R180, R181: an instruction's execution faults only with the cause listed for it, and reports pc0, its own
word, and for MemOutOfBounds the lowest address out of range. The codes and the payload are decision D3 (log 11). -/
def Obligations.FaultsAreTheListedOnes : Prop :=
  ∀ (i : Instr) (s : State) (f : Fault), exec i s = .fault f →
    i.mayFaultWith f.code = true ∧ f.pc0 = s.pc ∧ f.word = some (encode i) ∧
      f.addr = if f.code = 6 then some (max s.i.toNat 0x1000) else none

/-- 93_implementation_defined: every state has a step, which either succeeds or faults; no instruction is refused. -/
def Obligations.EveryStepSucceedsOrFaults : Prop :=
  ∀ s : State, (∃ t, step s = .next t) ∨ ∃ f, step s = .fault f

/-- 70_reset_and_hazards R218: at a jump to itself a step changes nothing (but the model's inputs of the next step). The reading
of "ended" is the spec's decision D23. -/
def Obligations.EndedProgramStaysPut : Prop :=
  ∀ s : State, s.ended → step s = .next s.drawInputs

/-! ### Encoding -/

/-- 30_encoding R91 and R85: a few words of the spec decode to the instructions they stand for, one of every format. That the
last two words are illegal is the spec's decisions D4, D5 (log 19). -/
def Obligations.SpecWordsDecode : Prop :=
  decodeTableWord 16 0x00E0 = some .cls ∧ decodeTableWord 16 0x1200 = some (.jp 0x200) ∧
  decodeTableWord 16 0x6A3C = some (.ldImm 0xA 0x3C) ∧ decodeTableWord 16 0x8124 = some (.addReg 0x1 0x2) ∧
  decodeTableWord 16 0xD015 = some (.drw 0x0 0x1 0x5) ∧ decodeTableWord 16 0xF355 = some (.ldMemVx 0x3) ∧
  decodeTableWord 16 0x5121 = none ∧ decodeTableWord 16 0x0000 = none

/-- 30_encoding R84, R85: the decoder accepts exactly the words that select a row of the opcode map, reads from each an
instruction of that row, and no word selects a second row. That every other word is rejected is the spec's decisions D4, D5
(log 19). -/
def Obligations.DecoderAgreesWithOpcodeMap : Prop :=
  ∀ w : Word,
    (legalWord w = true → ∃ i, decodeWord w = .ok i) ∧
    (legalWord w = false → ∃ e, decodeWord w = .error e) ∧
    (∀ i, decodeWord w = .ok i → i.row.selects w = true ∧ ∀ r ∈ opcodeMap, r.selects w = true → r = i.row)

/-- Decoding the bytes of any instruction gives it back, with the bytes after it: no operand bit is dropped. -/
def Obligations.DecodeEncode : Prop :=
  ∀ (i : Instr) (rest : List Byte), decode (encodeBytes i ++ rest) = .ok (i, rest)

/-- A word has one meaning: the instruction read from a word encodes to that word. -/
def Obligations.EncodeDecode : Prop :=
  ∀ (w : Word) (i : Instr), decodeWord w = .ok i → encode i = w

/-! ### Reset, the driver, invariants -/

/-- 10_state R33, 70_reset_and_hazards R210: what reset leaves, for every parameter value: PC 0x200, SP 0, the display clear,
the font in its place (the source's), every other register, slot, timer and byte zero (the spec's decision D7, logs 7, 8). The
driver's `reset`, at any step boundary, leaves the same; that it keeps the parameters and the inputs is log 26. -/
def Obligations.ResetState : Prop :=
  (∃ p rnd keys n, State.reset = State.resetWith p rnd keys n) ∧
  (∀ s : State, s.driverReset = State.resetWith s.params s.rnd s.keys s.inputs) ∧
  ∀ (p : Params) (rnd : Byte) (keys : BitVec 16) (n : Nat),
    (State.resetWith p rnd keys n).pc = 0x0200 ∧ (State.resetWith p rnd keys n).sp = 0 ∧
    (∀ (r : Fin 32) (c : Fin 64), (State.resetWith p rnd keys n).display[r.val][c.val] = false) ∧
    (∀ k : Fin 80, (State.resetWith p rnd keys n).readByte (p.fontBase.val + k.val) = p.font[k.val]) ∧
    (∀ a, (a < p.fontBase.val ∨ p.fontBase.val + 80 ≤ a) → (State.resetWith p rnd keys n).readByte a = 0) ∧
    (∀ x : Reg, (State.resetWith p rnd keys n).readV x = 0) ∧ (State.resetWith p rnd keys n).i = 0 ∧
    (∀ k : Fin 16, (State.resetWith p rnd keys n).stack[k.val] = 0) ∧
    (State.resetWith p rnd keys n).dt = 0 ∧ (State.resetWith p rnd keys n).st = 0

/-- 60_exceptions R194: a tick decrements each timer above 0, leaves a timer at 0, and touches nothing else. The floor is the
spec's decision D17 (log 24). -/
def Obligations.TickDecrementsToZero : Prop :=
  ∀ s : State, s.tick = { s with dt := s.tick.dt, st := s.tick.st } ∧
    s.tick.dt.toNat = s.dt.toNat - 1 ∧ s.tick.st.toNat = s.st.toNat - 1

/-- 20_memory R64, 60_exceptions R188: `load` writes the image byte for byte if it fits, and nothing but memory; else it
returns LoadOverflow, code 7. What `load` touches is the spec's decision D18 (log 25). -/
def Obligations.LoadWritesImageOrOverflows : Prop :=
  ∀ (s : State) (bytes : List Byte) (base : Nat),
    (base + bytes.length ≤ 4096 →
      ∃ t, s.load bytes base = .ok t ∧ t = { s with mem := t.mem } ∧
        (∀ (k : Nat) (h : k < bytes.length), t.readByte (base + k) = bytes[k]) ∧
        ∀ a, (a < base ∨ base + bytes.length ≤ a) → t.readByte a = s.readByte a) ∧
    (4096 < base + bytes.length → s.load bytes base = .loadOverflow ∧ (s.load bytes base).code = 7)

/-- 60_exceptions R195: while the driver never writes DT, no driver operation (tick, load, reset, a write of ST, a delivery of
inputs) and no step but one of Fx15 raises DT. A tick at DT = 0 leaves it there by the floor at zero, the spec's decision D17
(log 24, PRESUMED), and a reset leaves DT = 0 by decision D7 (log 7). -/
def Obligations.DtNeverIncreasesExceptByFx15 : Prop :=
  ∀ (act : Action) (s t : State), act.perform s = .next t →
    (∀ a, act ≠ .writeDt a) → (act = .step → ∀ w x, s.fetch = .ok w → decodeWord w ≠ .ok (.ldDtVx x)) →
    t.dt.toNat ≤ s.dt.toNat

/-- The invariant holds at reset: no slot is occupied, memory lists nothing, PC is 0x0200 (10_state R33). That every free slot
is 0 is the spec's decision D7 (log 7). -/
def Obligations.InvariantAtReset : Prop := State.reset.Inv

/-- Every step keeps the invariant: memory stays canonical, an occupied slot holds the address after a CALL, a free slot 0, and
PC stays at most 0x10FE (10_state R24, R36). -/
def Obligations.StepKeepsInvariant : Prop :=
  ∀ s t : State, s.Inv → step s = .next t → t.Inv

/-- Every run keeps the invariant, however the driver's operations fall between the steps (70_reset_and_hazards R219). That a
reset leaves every slot 0 is the spec's decision D7 (log 7). -/
def Obligations.EveryScheduleKeepsInvariant : Prop :=
  ∀ (acts : List Action) (s t : State), s.Inv → runSchedule acts s = .next t → t.Inv
end

