-- ==== Sys2Proof/Laws/Decode.lean ====
section
/-! SUPPORT. The fields of a word built from fields, and of the bytes of a word. -/

namespace Sys2Proof

/-! ### Fields of the formats (30_encoding R81, R83) -/

theorem extract_low {m n : Nat} (a : BitVec m) (b : BitVec n) : (a ++ b).extractLsb' 0 n = b := by
  ext k hk
  simp [BitVec.getLsbD_append, hk]

theorem extract_high {m n : Nat} (a : BitVec m) (b : BitVec n) : (a ++ b).extractLsb' n m = a := by
  ext k hk
  simp [BitVec.getLsbD_append, hk]

/-- A field of the low part of an append is that field of the low part. -/
theorem extract_within {m n s l : Nat} (a : BitVec m) (b : BitVec n) (h : s + l ≤ n) :
    (a ++ b).extractLsb' s l = b.extractLsb' s l := by
  ext k hk
  simp [BitVec.getLsbD_append, show s + k < n by omega]

@[simp] theorem opField_formatA (op : BitVec 4) (nnn : Addr) : opField (formatA op nnn) = op := extract_high _ _
@[simp] theorem nnnField_formatA (op : BitVec 4) (nnn : Addr) : nnnField (formatA op nnn) = nnn := extract_low _ _

@[simp] theorem opField_formatXI (op : BitVec 4) (x : Reg) (nn : Byte) : opField (formatXI op x nn) = op :=
  extract_high _ _
@[simp] theorem xField_formatXI (op : BitVec 4) (x : Reg) (nn : Byte) : xField (formatXI op x nn) = x :=
  (extract_within op (x ++ nn) (by decide)).trans (extract_high _ _)
@[simp] theorem nnField_formatXI (op : BitVec 4) (x : Reg) (nn : Byte) : nnField (formatXI op x nn) = nn :=
  (extract_within op (x ++ nn) (by decide)).trans (extract_low _ _)

@[simp] theorem opField_formatXYN (op : BitVec 4) (x y : Reg) (n : Nibble) : opField (formatXYN op x y n) = op :=
  extract_high _ _
@[simp] theorem xField_formatXYN (op : BitVec 4) (x y : Reg) (n : Nibble) : xField (formatXYN op x y n) = x :=
  (extract_within op (x ++ (y ++ n)) (by decide)).trans (extract_high _ _)
@[simp] theorem yField_formatXYN (op : BitVec 4) (x y : Reg) (n : Nibble) : yField (formatXYN op x y n) = y :=
  (extract_within op (x ++ (y ++ n)) (by decide)).trans
    ((extract_within x (y ++ n) (by decide)).trans (extract_high _ _))
@[simp] theorem nField_formatXYN (op : BitVec 4) (x y : Reg) (n : Nibble) : nField (formatXYN op x y n) = n :=
  (extract_within op (x ++ (y ++ n)) (by decide)).trans
    ((extract_within x (y ++ n) (by decide)).trans (extract_low _ _))

/-! ### A word is its fields, and its bytes -/

theorem append_extract {m n : Nat} (w : BitVec (m + n)) : w.extractLsb' n m ++ w.extractLsb' 0 n = w := by
  ext k hk
  rw [BitVec.getElem_append]
  split
  · next h => simp [← BitVec.getLsbD_eq_getElem, h]
  · next h =>
    simp [← BitVec.getLsbD_eq_getElem, Nat.add_sub_cancel' (Nat.le_of_not_lt h), show k - n < m by omega]

theorem formatA_fields (w : Word) : formatA (opField w) (nnnField w) = w := append_extract (m := 4) (n := 12) w

theorem formatXI_fields (w : Word) : formatXI (opField w) (xField w) (nnField w) = w := by
  refine .trans ?_ (append_extract (m := 4) (n := 12) w)
  refine congrArg (opField w ++ ·) (.trans ?_ (append_extract (m := 4) (n := 8) (w.extractLsb' 0 12)))
  simp only [xField, nnField]
  congr 1 <;> ext k hk <;> simp

theorem formatXYN_fields (w : Word) : formatXYN (opField w) (xField w) (yField w) (nField w) = w := by
  refine .trans ?_ (formatXI_fields w)
  refine congrArg (fun b => opField w ++ (xField w ++ b)) ?_
  refine .trans ?_ (append_extract (m := 4) (n := 4) (w.extractLsb' 0 8))
  simp only [yField, nField]
  congr 1 <;> ext k hk <;> simp

@[simp] theorem wordOfBytes_high_low (w : Word) : wordOfBytes (highByte w) (lowByte w) = w :=
  append_extract (m := 8) (n := 8) w

end Sys2Proof
end

