-- ==== Sys2Proof/Laws/State.lean ====
section
/-! SUPPORT. What each update of the state does to each field: one lemma per field per update, so that no later proof
unfolds a record update. -/

namespace Sys2Proof.Machine

open Sys2Proof

/-! ### writeV -/

@[simp] theorem State.writeV_v (s : State) (x : Reg) (a : Byte) :
    (s.writeV x a).v = s.v.set x.toNat a x.isLt := rfl
@[simp] theorem State.writeV_i (s : State) (x : Reg) (a : Byte) :
    (s.writeV x a).i = s.i := rfl
@[simp] theorem State.writeV_pc (s : State) (x : Reg) (a : Byte) :
    (s.writeV x a).pc = s.pc := rfl
@[simp] theorem State.writeV_sp (s : State) (x : Reg) (a : Byte) :
    (s.writeV x a).sp = s.sp := rfl
@[simp] theorem State.writeV_stack (s : State) (x : Reg) (a : Byte) :
    (s.writeV x a).stack = s.stack := rfl
@[simp] theorem State.writeV_dt (s : State) (x : Reg) (a : Byte) :
    (s.writeV x a).dt = s.dt := rfl
@[simp] theorem State.writeV_st (s : State) (x : Reg) (a : Byte) :
    (s.writeV x a).st = s.st := rfl
@[simp] theorem State.writeV_display (s : State) (x : Reg) (a : Byte) :
    (s.writeV x a).display = s.display := rfl
@[simp] theorem State.writeV_mem (s : State) (x : Reg) (a : Byte) :
    (s.writeV x a).mem = s.mem := rfl
@[simp] theorem State.writeV_params (s : State) (x : Reg) (a : Byte) :
    (s.writeV x a).params = s.params := rfl
@[simp] theorem State.writeV_rnd (s : State) (x : Reg) (a : Byte) :
    (s.writeV x a).rnd = s.rnd := rfl
@[simp] theorem State.writeV_keys (s : State) (x : Reg) (a : Byte) :
    (s.writeV x a).keys = s.keys := rfl
@[simp] theorem State.writeV_inputs (s : State) (x : Reg) (a : Byte) :
    (s.writeV x a).inputs = s.inputs := rfl

/-! ### writeI -/

@[simp] theorem State.writeI_v (s : State) (a : Word) :
    (s.writeI a).v = s.v := rfl
@[simp] theorem State.writeI_i (s : State) (a : Word) :
    (s.writeI a).i = a := rfl
@[simp] theorem State.writeI_pc (s : State) (a : Word) :
    (s.writeI a).pc = s.pc := rfl
@[simp] theorem State.writeI_sp (s : State) (a : Word) :
    (s.writeI a).sp = s.sp := rfl
@[simp] theorem State.writeI_stack (s : State) (a : Word) :
    (s.writeI a).stack = s.stack := rfl
@[simp] theorem State.writeI_dt (s : State) (a : Word) :
    (s.writeI a).dt = s.dt := rfl
@[simp] theorem State.writeI_st (s : State) (a : Word) :
    (s.writeI a).st = s.st := rfl
@[simp] theorem State.writeI_display (s : State) (a : Word) :
    (s.writeI a).display = s.display := rfl
@[simp] theorem State.writeI_mem (s : State) (a : Word) :
    (s.writeI a).mem = s.mem := rfl
@[simp] theorem State.writeI_params (s : State) (a : Word) :
    (s.writeI a).params = s.params := rfl
@[simp] theorem State.writeI_rnd (s : State) (a : Word) :
    (s.writeI a).rnd = s.rnd := rfl
@[simp] theorem State.writeI_keys (s : State) (a : Word) :
    (s.writeI a).keys = s.keys := rfl
@[simp] theorem State.writeI_inputs (s : State) (a : Word) :
    (s.writeI a).inputs = s.inputs := rfl

/-! ### writePc -/

@[simp] theorem State.writePc_v (s : State) (a : Word) :
    (s.writePc a).v = s.v := rfl
@[simp] theorem State.writePc_i (s : State) (a : Word) :
    (s.writePc a).i = s.i := rfl
@[simp] theorem State.writePc_pc (s : State) (a : Word) :
    (s.writePc a).pc = a := rfl
@[simp] theorem State.writePc_sp (s : State) (a : Word) :
    (s.writePc a).sp = s.sp := rfl
@[simp] theorem State.writePc_stack (s : State) (a : Word) :
    (s.writePc a).stack = s.stack := rfl
@[simp] theorem State.writePc_dt (s : State) (a : Word) :
    (s.writePc a).dt = s.dt := rfl
@[simp] theorem State.writePc_st (s : State) (a : Word) :
    (s.writePc a).st = s.st := rfl
@[simp] theorem State.writePc_display (s : State) (a : Word) :
    (s.writePc a).display = s.display := rfl
@[simp] theorem State.writePc_mem (s : State) (a : Word) :
    (s.writePc a).mem = s.mem := rfl
@[simp] theorem State.writePc_params (s : State) (a : Word) :
    (s.writePc a).params = s.params := rfl
@[simp] theorem State.writePc_rnd (s : State) (a : Word) :
    (s.writePc a).rnd = s.rnd := rfl
@[simp] theorem State.writePc_keys (s : State) (a : Word) :
    (s.writePc a).keys = s.keys := rfl
@[simp] theorem State.writePc_inputs (s : State) (a : Word) :
    (s.writePc a).inputs = s.inputs := rfl

/-! ### writeDt -/

@[simp] theorem State.writeDt_v (s : State) (a : Byte) :
    (s.writeDt a).v = s.v := rfl
@[simp] theorem State.writeDt_i (s : State) (a : Byte) :
    (s.writeDt a).i = s.i := rfl
@[simp] theorem State.writeDt_pc (s : State) (a : Byte) :
    (s.writeDt a).pc = s.pc := rfl
@[simp] theorem State.writeDt_sp (s : State) (a : Byte) :
    (s.writeDt a).sp = s.sp := rfl
@[simp] theorem State.writeDt_stack (s : State) (a : Byte) :
    (s.writeDt a).stack = s.stack := rfl
@[simp] theorem State.writeDt_dt (s : State) (a : Byte) :
    (s.writeDt a).dt = a := rfl
@[simp] theorem State.writeDt_st (s : State) (a : Byte) :
    (s.writeDt a).st = s.st := rfl
@[simp] theorem State.writeDt_display (s : State) (a : Byte) :
    (s.writeDt a).display = s.display := rfl
@[simp] theorem State.writeDt_mem (s : State) (a : Byte) :
    (s.writeDt a).mem = s.mem := rfl
@[simp] theorem State.writeDt_params (s : State) (a : Byte) :
    (s.writeDt a).params = s.params := rfl
@[simp] theorem State.writeDt_rnd (s : State) (a : Byte) :
    (s.writeDt a).rnd = s.rnd := rfl
@[simp] theorem State.writeDt_keys (s : State) (a : Byte) :
    (s.writeDt a).keys = s.keys := rfl
@[simp] theorem State.writeDt_inputs (s : State) (a : Byte) :
    (s.writeDt a).inputs = s.inputs := rfl

/-! ### writeSt -/

@[simp] theorem State.writeSt_v (s : State) (a : Byte) :
    (s.writeSt a).v = s.v := rfl
@[simp] theorem State.writeSt_i (s : State) (a : Byte) :
    (s.writeSt a).i = s.i := rfl
@[simp] theorem State.writeSt_pc (s : State) (a : Byte) :
    (s.writeSt a).pc = s.pc := rfl
@[simp] theorem State.writeSt_sp (s : State) (a : Byte) :
    (s.writeSt a).sp = s.sp := rfl
@[simp] theorem State.writeSt_stack (s : State) (a : Byte) :
    (s.writeSt a).stack = s.stack := rfl
@[simp] theorem State.writeSt_dt (s : State) (a : Byte) :
    (s.writeSt a).dt = s.dt := rfl
@[simp] theorem State.writeSt_st (s : State) (a : Byte) :
    (s.writeSt a).st = a := rfl
@[simp] theorem State.writeSt_display (s : State) (a : Byte) :
    (s.writeSt a).display = s.display := rfl
@[simp] theorem State.writeSt_mem (s : State) (a : Byte) :
    (s.writeSt a).mem = s.mem := rfl
@[simp] theorem State.writeSt_params (s : State) (a : Byte) :
    (s.writeSt a).params = s.params := rfl
@[simp] theorem State.writeSt_rnd (s : State) (a : Byte) :
    (s.writeSt a).rnd = s.rnd := rfl
@[simp] theorem State.writeSt_keys (s : State) (a : Byte) :
    (s.writeSt a).keys = s.keys := rfl
@[simp] theorem State.writeSt_inputs (s : State) (a : Byte) :
    (s.writeSt a).inputs = s.inputs := rfl

/-! ### writeDisplay -/

@[simp] theorem State.writeDisplay_v (s : State) (d : Display) :
    (s.writeDisplay d).v = s.v := rfl
@[simp] theorem State.writeDisplay_i (s : State) (d : Display) :
    (s.writeDisplay d).i = s.i := rfl
@[simp] theorem State.writeDisplay_pc (s : State) (d : Display) :
    (s.writeDisplay d).pc = s.pc := rfl
@[simp] theorem State.writeDisplay_sp (s : State) (d : Display) :
    (s.writeDisplay d).sp = s.sp := rfl
@[simp] theorem State.writeDisplay_stack (s : State) (d : Display) :
    (s.writeDisplay d).stack = s.stack := rfl
@[simp] theorem State.writeDisplay_dt (s : State) (d : Display) :
    (s.writeDisplay d).dt = s.dt := rfl
@[simp] theorem State.writeDisplay_st (s : State) (d : Display) :
    (s.writeDisplay d).st = s.st := rfl
@[simp] theorem State.writeDisplay_display (s : State) (d : Display) :
    (s.writeDisplay d).display = d := rfl
@[simp] theorem State.writeDisplay_mem (s : State) (d : Display) :
    (s.writeDisplay d).mem = s.mem := rfl
@[simp] theorem State.writeDisplay_params (s : State) (d : Display) :
    (s.writeDisplay d).params = s.params := rfl
@[simp] theorem State.writeDisplay_rnd (s : State) (d : Display) :
    (s.writeDisplay d).rnd = s.rnd := rfl
@[simp] theorem State.writeDisplay_keys (s : State) (d : Display) :
    (s.writeDisplay d).keys = s.keys := rfl
@[simp] theorem State.writeDisplay_inputs (s : State) (d : Display) :
    (s.writeDisplay d).inputs = s.inputs := rfl

/-! ### writeByte -/

@[simp] theorem State.writeByte_v (s : State) (a : Nat) (x : Byte) :
    (s.writeByte a x).v = s.v := rfl
@[simp] theorem State.writeByte_i (s : State) (a : Nat) (x : Byte) :
    (s.writeByte a x).i = s.i := rfl
@[simp] theorem State.writeByte_pc (s : State) (a : Nat) (x : Byte) :
    (s.writeByte a x).pc = s.pc := rfl
@[simp] theorem State.writeByte_sp (s : State) (a : Nat) (x : Byte) :
    (s.writeByte a x).sp = s.sp := rfl
@[simp] theorem State.writeByte_stack (s : State) (a : Nat) (x : Byte) :
    (s.writeByte a x).stack = s.stack := rfl
@[simp] theorem State.writeByte_dt (s : State) (a : Nat) (x : Byte) :
    (s.writeByte a x).dt = s.dt := rfl
@[simp] theorem State.writeByte_st (s : State) (a : Nat) (x : Byte) :
    (s.writeByte a x).st = s.st := rfl
@[simp] theorem State.writeByte_display (s : State) (a : Nat) (x : Byte) :
    (s.writeByte a x).display = s.display := rfl
@[simp] theorem State.writeByte_mem (s : State) (a : Nat) (x : Byte) :
    (s.writeByte a x).mem = Memory.write s.params s.mem a x := rfl
@[simp] theorem State.writeByte_params (s : State) (a : Nat) (x : Byte) :
    (s.writeByte a x).params = s.params := rfl
@[simp] theorem State.writeByte_rnd (s : State) (a : Nat) (x : Byte) :
    (s.writeByte a x).rnd = s.rnd := rfl
@[simp] theorem State.writeByte_keys (s : State) (a : Nat) (x : Byte) :
    (s.writeByte a x).keys = s.keys := rfl
@[simp] theorem State.writeByte_inputs (s : State) (a : Nat) (x : Byte) :
    (s.writeByte a x).inputs = s.inputs := rfl

/-! ### advance -/

@[simp] theorem State.advance_v (s : State) :
    (s.advance).v = s.v := rfl
@[simp] theorem State.advance_i (s : State) :
    (s.advance).i = s.i := rfl
@[simp] theorem State.advance_pc (s : State) :
    (s.advance).pc = s.pc + 2 := rfl
@[simp] theorem State.advance_sp (s : State) :
    (s.advance).sp = s.sp := rfl
@[simp] theorem State.advance_stack (s : State) :
    (s.advance).stack = s.stack := rfl
@[simp] theorem State.advance_dt (s : State) :
    (s.advance).dt = s.dt := rfl
@[simp] theorem State.advance_st (s : State) :
    (s.advance).st = s.st := rfl
@[simp] theorem State.advance_display (s : State) :
    (s.advance).display = s.display := rfl
@[simp] theorem State.advance_mem (s : State) :
    (s.advance).mem = s.mem := rfl
@[simp] theorem State.advance_params (s : State) :
    (s.advance).params = s.params := rfl
@[simp] theorem State.advance_rnd (s : State) :
    (s.advance).rnd = s.rnd := rfl
@[simp] theorem State.advance_keys (s : State) :
    (s.advance).keys = s.keys := rfl
@[simp] theorem State.advance_inputs (s : State) :
    (s.advance).inputs = s.inputs := rfl

/-! ### commitFlagThenResult -/

@[simp] theorem State.commitFlagThenResult_v (s : State) (x : Reg) (f r : Byte) :
    (s.commitFlagThenResult x f r).v = (s.v.set 15 f).set x.toNat r x.isLt := rfl
@[simp] theorem State.commitFlagThenResult_i (s : State) (x : Reg) (f r : Byte) :
    (s.commitFlagThenResult x f r).i = s.i := rfl
@[simp] theorem State.commitFlagThenResult_pc (s : State) (x : Reg) (f r : Byte) :
    (s.commitFlagThenResult x f r).pc = s.pc := rfl
@[simp] theorem State.commitFlagThenResult_sp (s : State) (x : Reg) (f r : Byte) :
    (s.commitFlagThenResult x f r).sp = s.sp := rfl
@[simp] theorem State.commitFlagThenResult_stack (s : State) (x : Reg) (f r : Byte) :
    (s.commitFlagThenResult x f r).stack = s.stack := rfl
@[simp] theorem State.commitFlagThenResult_dt (s : State) (x : Reg) (f r : Byte) :
    (s.commitFlagThenResult x f r).dt = s.dt := rfl
@[simp] theorem State.commitFlagThenResult_st (s : State) (x : Reg) (f r : Byte) :
    (s.commitFlagThenResult x f r).st = s.st := rfl
@[simp] theorem State.commitFlagThenResult_display (s : State) (x : Reg) (f r : Byte) :
    (s.commitFlagThenResult x f r).display = s.display := rfl
@[simp] theorem State.commitFlagThenResult_mem (s : State) (x : Reg) (f r : Byte) :
    (s.commitFlagThenResult x f r).mem = s.mem := rfl
@[simp] theorem State.commitFlagThenResult_params (s : State) (x : Reg) (f r : Byte) :
    (s.commitFlagThenResult x f r).params = s.params := rfl
@[simp] theorem State.commitFlagThenResult_rnd (s : State) (x : Reg) (f r : Byte) :
    (s.commitFlagThenResult x f r).rnd = s.rnd := rfl
@[simp] theorem State.commitFlagThenResult_keys (s : State) (x : Reg) (f r : Byte) :
    (s.commitFlagThenResult x f r).keys = s.keys := rfl
@[simp] theorem State.commitFlagThenResult_inputs (s : State) (x : Reg) (f r : Byte) :
    (s.commitFlagThenResult x f r).inputs = s.inputs := rfl

/-! ### loadRegisters -/

@[simp] theorem State.loadRegisters_v (s : State) (xs : List Byte) :
    (s.loadRegisters xs).v = Vector.ofFn fun k : Fin 16 => xs.getD k.val s.v[k] := rfl
@[simp] theorem State.loadRegisters_i (s : State) (xs : List Byte) :
    (s.loadRegisters xs).i = s.i := rfl
@[simp] theorem State.loadRegisters_pc (s : State) (xs : List Byte) :
    (s.loadRegisters xs).pc = s.pc := rfl
@[simp] theorem State.loadRegisters_sp (s : State) (xs : List Byte) :
    (s.loadRegisters xs).sp = s.sp := rfl
@[simp] theorem State.loadRegisters_stack (s : State) (xs : List Byte) :
    (s.loadRegisters xs).stack = s.stack := rfl
@[simp] theorem State.loadRegisters_dt (s : State) (xs : List Byte) :
    (s.loadRegisters xs).dt = s.dt := rfl
@[simp] theorem State.loadRegisters_st (s : State) (xs : List Byte) :
    (s.loadRegisters xs).st = s.st := rfl
@[simp] theorem State.loadRegisters_display (s : State) (xs : List Byte) :
    (s.loadRegisters xs).display = s.display := rfl
@[simp] theorem State.loadRegisters_mem (s : State) (xs : List Byte) :
    (s.loadRegisters xs).mem = s.mem := rfl
@[simp] theorem State.loadRegisters_params (s : State) (xs : List Byte) :
    (s.loadRegisters xs).params = s.params := rfl
@[simp] theorem State.loadRegisters_rnd (s : State) (xs : List Byte) :
    (s.loadRegisters xs).rnd = s.rnd := rfl
@[simp] theorem State.loadRegisters_keys (s : State) (xs : List Byte) :
    (s.loadRegisters xs).keys = s.keys := rfl
@[simp] theorem State.loadRegisters_inputs (s : State) (xs : List Byte) :
    (s.loadRegisters xs).inputs = s.inputs := rfl

/-! ### drawInputs -/

@[simp] theorem State.drawInputs_v (s : State) :
    (s.drawInputs).v = s.v := rfl
@[simp] theorem State.drawInputs_i (s : State) :
    (s.drawInputs).i = s.i := rfl
@[simp] theorem State.drawInputs_pc (s : State) :
    (s.drawInputs).pc = s.pc := rfl
@[simp] theorem State.drawInputs_sp (s : State) :
    (s.drawInputs).sp = s.sp := rfl
@[simp] theorem State.drawInputs_stack (s : State) :
    (s.drawInputs).stack = s.stack := rfl
@[simp] theorem State.drawInputs_dt (s : State) :
    (s.drawInputs).dt = s.dt := rfl
@[simp] theorem State.drawInputs_st (s : State) :
    (s.drawInputs).st = s.st := rfl
@[simp] theorem State.drawInputs_display (s : State) :
    (s.drawInputs).display = s.display := rfl
@[simp] theorem State.drawInputs_mem (s : State) :
    (s.drawInputs).mem = s.mem := rfl
@[simp] theorem State.drawInputs_params (s : State) :
    (s.drawInputs).params = s.params := rfl
@[simp] theorem State.drawInputs_rnd (s : State) :
    (s.drawInputs).rnd = Config.rnd s.inputs := rfl
@[simp] theorem State.drawInputs_keys (s : State) :
    (s.drawInputs).keys = Config.keys s.inputs := rfl
@[simp] theorem State.drawInputs_inputs (s : State) :
    (s.drawInputs).inputs = s.inputs + 1 := rfl

/-! ### deliver -/

@[simp] theorem State.deliver_v (s : State) (r : Byte) (k : BitVec 16) :
    (s.deliver r k).v = s.v := rfl
@[simp] theorem State.deliver_i (s : State) (r : Byte) (k : BitVec 16) :
    (s.deliver r k).i = s.i := rfl
@[simp] theorem State.deliver_pc (s : State) (r : Byte) (k : BitVec 16) :
    (s.deliver r k).pc = s.pc := rfl
@[simp] theorem State.deliver_sp (s : State) (r : Byte) (k : BitVec 16) :
    (s.deliver r k).sp = s.sp := rfl
@[simp] theorem State.deliver_stack (s : State) (r : Byte) (k : BitVec 16) :
    (s.deliver r k).stack = s.stack := rfl
@[simp] theorem State.deliver_dt (s : State) (r : Byte) (k : BitVec 16) :
    (s.deliver r k).dt = s.dt := rfl
@[simp] theorem State.deliver_st (s : State) (r : Byte) (k : BitVec 16) :
    (s.deliver r k).st = s.st := rfl
@[simp] theorem State.deliver_display (s : State) (r : Byte) (k : BitVec 16) :
    (s.deliver r k).display = s.display := rfl
@[simp] theorem State.deliver_mem (s : State) (r : Byte) (k : BitVec 16) :
    (s.deliver r k).mem = s.mem := rfl
@[simp] theorem State.deliver_params (s : State) (r : Byte) (k : BitVec 16) :
    (s.deliver r k).params = s.params := rfl
@[simp] theorem State.deliver_rnd (s : State) (r : Byte) (k : BitVec 16) :
    (s.deliver r k).rnd = r := rfl
@[simp] theorem State.deliver_keys (s : State) (r : Byte) (k : BitVec 16) :
    (s.deliver r k).keys = k := rfl
@[simp] theorem State.deliver_inputs (s : State) (r : Byte) (k : BitVec 16) :
    (s.deliver r k).inputs = s.inputs := rfl

/-! ### tick -/

@[simp] theorem State.tick_v (s : State) :
    (s.tick).v = s.v := rfl
@[simp] theorem State.tick_i (s : State) :
    (s.tick).i = s.i := rfl
@[simp] theorem State.tick_pc (s : State) :
    (s.tick).pc = s.pc := rfl
@[simp] theorem State.tick_sp (s : State) :
    (s.tick).sp = s.sp := rfl
@[simp] theorem State.tick_stack (s : State) :
    (s.tick).stack = s.stack := rfl
@[simp] theorem State.tick_dt (s : State) :
    (s.tick).dt = tickDown s.dt := rfl
@[simp] theorem State.tick_st (s : State) :
    (s.tick).st = tickDown s.st := rfl
@[simp] theorem State.tick_display (s : State) :
    (s.tick).display = s.display := rfl
@[simp] theorem State.tick_mem (s : State) :
    (s.tick).mem = s.mem := rfl
@[simp] theorem State.tick_params (s : State) :
    (s.tick).params = s.params := rfl
@[simp] theorem State.tick_rnd (s : State) :
    (s.tick).rnd = s.rnd := rfl
@[simp] theorem State.tick_keys (s : State) :
    (s.tick).keys = s.keys := rfl
@[simp] theorem State.tick_inputs (s : State) :
    (s.tick).inputs = s.inputs := rfl

/-! ### advanceSkipping, stepI and writeBytes: by cases on the skip, the quirk and the bytes -/

@[simp] theorem State.advanceSkipping_v (s : State) (c : Bool) :
    (s.advanceSkipping c).v = s.v := by cases c <;> rfl
@[simp] theorem State.advanceSkipping_i (s : State) (c : Bool) :
    (s.advanceSkipping c).i = s.i := by cases c <;> rfl
@[simp] theorem State.advanceSkipping_pc (s : State) (c : Bool) :
    (s.advanceSkipping c).pc = if c then s.pc + 4 else s.pc + 2 := by
  cases c <;> simp [State.advanceSkipping, BitVec.add_assoc]
@[simp] theorem State.advanceSkipping_sp (s : State) (c : Bool) :
    (s.advanceSkipping c).sp = s.sp := by cases c <;> rfl
@[simp] theorem State.advanceSkipping_stack (s : State) (c : Bool) :
    (s.advanceSkipping c).stack = s.stack := by cases c <;> rfl
@[simp] theorem State.advanceSkipping_dt (s : State) (c : Bool) :
    (s.advanceSkipping c).dt = s.dt := by cases c <;> rfl
@[simp] theorem State.advanceSkipping_st (s : State) (c : Bool) :
    (s.advanceSkipping c).st = s.st := by cases c <;> rfl
@[simp] theorem State.advanceSkipping_display (s : State) (c : Bool) :
    (s.advanceSkipping c).display = s.display := by cases c <;> rfl
@[simp] theorem State.advanceSkipping_mem (s : State) (c : Bool) :
    (s.advanceSkipping c).mem = s.mem := by cases c <;> rfl
@[simp] theorem State.advanceSkipping_params (s : State) (c : Bool) :
    (s.advanceSkipping c).params = s.params := by cases c <;> rfl
@[simp] theorem State.advanceSkipping_rnd (s : State) (c : Bool) :
    (s.advanceSkipping c).rnd = s.rnd := by cases c <;> rfl
@[simp] theorem State.advanceSkipping_keys (s : State) (c : Bool) :
    (s.advanceSkipping c).keys = s.keys := by cases c <;> rfl
@[simp] theorem State.advanceSkipping_inputs (s : State) (c : Bool) :
    (s.advanceSkipping c).inputs = s.inputs := by cases c <;> rfl

@[simp] theorem State.stepI_v (s : State) (x : Reg) :
    (s.stepI x).v = s.v := by unfold State.stepI; split <;> rfl
@[simp] theorem State.stepI_i (s : State) (x : Reg) :
    (s.stepI x).i = if s.params.quirkLoadStoreKeepI then s.i else BitVec.ofNat 16 (s.i.toNat + x.toNat + 1) := by
  unfold State.stepI; split <;> rfl
@[simp] theorem State.stepI_pc (s : State) (x : Reg) :
    (s.stepI x).pc = s.pc := by unfold State.stepI; split <;> rfl
@[simp] theorem State.stepI_sp (s : State) (x : Reg) :
    (s.stepI x).sp = s.sp := by unfold State.stepI; split <;> rfl
@[simp] theorem State.stepI_stack (s : State) (x : Reg) :
    (s.stepI x).stack = s.stack := by unfold State.stepI; split <;> rfl
@[simp] theorem State.stepI_dt (s : State) (x : Reg) :
    (s.stepI x).dt = s.dt := by unfold State.stepI; split <;> rfl
@[simp] theorem State.stepI_st (s : State) (x : Reg) :
    (s.stepI x).st = s.st := by unfold State.stepI; split <;> rfl
@[simp] theorem State.stepI_display (s : State) (x : Reg) :
    (s.stepI x).display = s.display := by unfold State.stepI; split <;> rfl
@[simp] theorem State.stepI_mem (s : State) (x : Reg) :
    (s.stepI x).mem = s.mem := by unfold State.stepI; split <;> rfl
@[simp] theorem State.stepI_params (s : State) (x : Reg) :
    (s.stepI x).params = s.params := by unfold State.stepI; split <;> rfl
@[simp] theorem State.stepI_rnd (s : State) (x : Reg) :
    (s.stepI x).rnd = s.rnd := by unfold State.stepI; split <;> rfl
@[simp] theorem State.stepI_keys (s : State) (x : Reg) :
    (s.stepI x).keys = s.keys := by unfold State.stepI; split <;> rfl
@[simp] theorem State.stepI_inputs (s : State) (x : Reg) :
    (s.stepI x).inputs = s.inputs := by unfold State.stepI; split <;> rfl

@[simp] theorem State.writeBytes_v (s : State) (a : Nat) (xs : List Byte) :
    (s.writeBytes a xs).v = s.v := by
  induction xs generalizing s a with
  | nil => rfl
  | cons x xs ih => simp [State.writeBytes, ih]
@[simp] theorem State.writeBytes_i (s : State) (a : Nat) (xs : List Byte) :
    (s.writeBytes a xs).i = s.i := by
  induction xs generalizing s a with
  | nil => rfl
  | cons x xs ih => simp [State.writeBytes, ih]
@[simp] theorem State.writeBytes_pc (s : State) (a : Nat) (xs : List Byte) :
    (s.writeBytes a xs).pc = s.pc := by
  induction xs generalizing s a with
  | nil => rfl
  | cons x xs ih => simp [State.writeBytes, ih]
@[simp] theorem State.writeBytes_sp (s : State) (a : Nat) (xs : List Byte) :
    (s.writeBytes a xs).sp = s.sp := by
  induction xs generalizing s a with
  | nil => rfl
  | cons x xs ih => simp [State.writeBytes, ih]
@[simp] theorem State.writeBytes_stack (s : State) (a : Nat) (xs : List Byte) :
    (s.writeBytes a xs).stack = s.stack := by
  induction xs generalizing s a with
  | nil => rfl
  | cons x xs ih => simp [State.writeBytes, ih]
@[simp] theorem State.writeBytes_dt (s : State) (a : Nat) (xs : List Byte) :
    (s.writeBytes a xs).dt = s.dt := by
  induction xs generalizing s a with
  | nil => rfl
  | cons x xs ih => simp [State.writeBytes, ih]
@[simp] theorem State.writeBytes_st (s : State) (a : Nat) (xs : List Byte) :
    (s.writeBytes a xs).st = s.st := by
  induction xs generalizing s a with
  | nil => rfl
  | cons x xs ih => simp [State.writeBytes, ih]
@[simp] theorem State.writeBytes_display (s : State) (a : Nat) (xs : List Byte) :
    (s.writeBytes a xs).display = s.display := by
  induction xs generalizing s a with
  | nil => rfl
  | cons x xs ih => simp [State.writeBytes, ih]
@[simp] theorem State.writeBytes_params (s : State) (a : Nat) (xs : List Byte) :
    (s.writeBytes a xs).params = s.params := by
  induction xs generalizing s a with
  | nil => rfl
  | cons x xs ih => simp [State.writeBytes, ih]
@[simp] theorem State.writeBytes_rnd (s : State) (a : Nat) (xs : List Byte) :
    (s.writeBytes a xs).rnd = s.rnd := by
  induction xs generalizing s a with
  | nil => rfl
  | cons x xs ih => simp [State.writeBytes, ih]
@[simp] theorem State.writeBytes_keys (s : State) (a : Nat) (xs : List Byte) :
    (s.writeBytes a xs).keys = s.keys := by
  induction xs generalizing s a with
  | nil => rfl
  | cons x xs ih => simp [State.writeBytes, ih]
@[simp] theorem State.writeBytes_inputs (s : State) (a : Nat) (xs : List Byte) :
    (s.writeBytes a xs).inputs = s.inputs := by
  induction xs generalizing s a with
  | nil => rfl
  | cons x xs ih => simp [State.writeBytes, ih]

end Sys2Proof.Machine
end

