-- ==== Sys2Proof/Laws/Memory.lean ====
section
/-! SUPPORT. The laws of memory: a read after a write, and that every memory operation keeps the canonical form. -/

namespace Sys2Proof.Machine

open Sys2Proof

/-! ### Read after write, on the list -/

theorem Memory.read_insert (p : Params) (m : List Host.Cell) (a b : Nat) (x : Byte) :
    Memory.read p (Memory.insert a x m) b = if b = a then x else Memory.read p m b := by
  induction m with
  | nil => simp [Memory.insert, Memory.read]
  | cons c m ih =>
    obtain ⟨d, y⟩ := c
    simp only [Memory.insert]
    split
    · simp [Memory.read]
    · split
      · next h => subst h; simp only [Memory.read]; split <;> simp_all
      · next h =>
        simp only [Memory.read, ih]
        by_cases hb : b = d
        · subst hb; simp [Ne.symm h]
        · simp [hb]

theorem Memory.read_erase (p : Params) (m : List Host.Cell) (a b : Nat) :
    Memory.read p (Memory.erase a m) b = if b = a then p.resetByte a else Memory.read p m b := by
  induction m with
  | nil => simp only [Memory.erase, List.filter_nil, Memory.read]; split <;> simp_all
  | cons c m ih =>
    obtain ⟨d, y⟩ := c
    simp only [Memory.erase, List.filter_cons] at ih ⊢
    by_cases h : d = a
    · subst h; simp only [bne_self_eq_false, Bool.false_eq_true, if_false, ih, Memory.read]; split <;> simp_all
    · simp only [bne_iff_ne, ne_eq, h, not_false_eq_true, if_true, Memory.read, ih]; split <;> simp_all

theorem Memory.read_write (p : Params) (m : List Host.Cell) (a b : Nat) (x : Byte) :
    Memory.read p (Memory.write p m a x) b = if b = a then x else Memory.read p m b := by
  unfold Memory.write
  split
  · next h => rw [Memory.read_erase, h]
  · exact Memory.read_insert ..

/-! ### The canonical form -/

theorem Memory.mem_insert {m : List Host.Cell} {a : Nat} {x : Byte} {c : Host.Cell}
    (h : c ∈ Memory.insert a x m) : c = (a, x) ∨ c ∈ m := by
  induction m with
  | nil => simpa [Memory.insert] using h
  | cons d m ih =>
    obtain ⟨b, y⟩ := d
    simp only [Memory.insert] at h
    split at h
    · simpa using h
    · split at h
      · rcases List.mem_cons.1 h with rfl | h
        · exact .inl rfl
        · exact .inr (List.mem_cons_of_mem _ h)
      · rcases List.mem_cons.1 h with rfl | h
        · exact .inr List.mem_cons_self
        · exact (ih h).imp_right (List.mem_cons_of_mem _)

theorem Memory.insert_pairwise {m : List Host.Cell} (a : Nat) (x : Byte)
    (h : m.Pairwise fun c d => c.1 < d.1) : (Memory.insert a x m).Pairwise fun c d => c.1 < d.1 := by
  induction m with
  | nil => simp [Memory.insert]
  | cons d m ih =>
    obtain ⟨b, y⟩ := d
    rw [List.pairwise_cons] at h
    simp only [Memory.insert]
    split
    · next hab =>
      refine List.pairwise_cons.2 ⟨fun c hc => ?_, List.pairwise_cons.2 h⟩
      rcases List.mem_cons.1 hc with rfl | hc
      · exact hab
      · exact hab.trans (h.1 c hc)
    · split
      · next hab => subst hab; exact List.pairwise_cons.2 h
      · next hlt hne =>
        refine List.pairwise_cons.2 ⟨fun c hc => ?_, ih h.2⟩
        rcases Memory.mem_insert hc with rfl | hc
        · simp only; omega
        · exact h.1 c hc

theorem Memory.write_wf {p : Params} {m : List Host.Cell} {a : Nat} (x : Byte)
    (ha : a < 4096) (h : Memory.wf p m) : Memory.wf p (Memory.write p m a x) := by
  unfold Memory.write
  split
  · exact ⟨h.1.filter _, fun c hc => h.2 c (List.mem_filter.1 hc).1⟩
  · next hx =>
    refine ⟨Memory.insert_pairwise a x h.1, fun c hc => ?_⟩
    rcases Memory.mem_insert hc with rfl | hc
    · exact ⟨ha, hx⟩
    · exact h.2 c hc

theorem Memory.nil_wf (p : Params) : Memory.wf p [] := by simp [Memory.wf]

theorem State.reset_mem_wf : Memory.wf State.reset.params State.reset.mem := Memory.nil_wf _

/-! ### Bytes of a state -/

theorem State.readByte_writeByte (s : State) (a b : Nat) (x : Byte) :
    (s.writeByte a x).readByte b = if b = a then x else s.readByte b := by
  simp [State.readByte, Memory.read_write]

/-- What a run of stores leaves in memory: the stored bytes in their places, every other byte as before. -/
theorem State.readByte_writeBytes (s : State) (a b : Nat) (xs : List Byte) :
    (s.writeBytes a xs).readByte b = if a ≤ b then xs.getD (b - a) (s.readByte b) else s.readByte b := by
  induction xs generalizing s a with
  | nil => simp [State.writeBytes]
  | cons x xs ih =>
    rw [State.writeBytes, ih, State.readByte_writeByte]
    obtain hlt | rfl | hgt := Nat.lt_trichotomy b a
    · rw [if_neg (by omega), if_neg (by omega), if_neg (by omega)]
    · simp
    · obtain ⟨k, rfl⟩ : ∃ k, b = a + 1 + k := ⟨b - (a + 1), by omega⟩
      rw [if_pos (by omega), if_neg (by omega), if_pos (by omega), show a + 1 + k - a = k + 1 by omega,
        List.getD_cons_succ, Nat.add_sub_cancel_left]

/-- A run of stores within memory keeps the canonical form. -/
theorem State.writeBytes_wf (s : State) (a : Nat) (xs : List Byte) (ha : a + xs.length ≤ 4096)
    (h : Memory.wf s.params s.mem) :
    Memory.wf (s.writeBytes a xs).params (s.writeBytes a xs).mem := by
  induction xs generalizing s a with
  | nil => exact h
  | cons x xs ih =>
    rw [List.length_cons] at ha
    exact ih (s.writeByte a x) (a + 1) (by omega) (Memory.write_wf x (by omega) h)

/-- All that a store at I can do: it is within memory and writes the bytes, or it answers nothing. -/
theorem State.storeAtI_cases (s : State) (xs : List Byte) :
    (inRange s.i.toNat xs.length = true ∧ s.storeAtI xs = some (s.writeBytes s.i.toNat xs)) ∨
      (inRange s.i.toNat xs.length = false ∧ s.storeAtI xs = none) := by
  unfold State.storeAtI
  cases h : inRange s.i.toNat xs.length <;> simp

/-- All that a load at I can do: it is within memory and reads the bytes, or it answers nothing. -/
theorem State.loadAtI_cases (s : State) (n : Nat) :
    (inRange s.i.toNat n = true ∧ s.loadAtI n = some (s.readBytes s.i.toNat n)) ∨
      (inRange s.i.toNat n = false ∧ s.loadAtI n = none) := by
  unfold State.loadAtI
  cases h : inRange s.i.toNat n <;> simp

@[simp] theorem State.readBytes_length (s : State) (a n : Nat) : (s.readBytes a n).length = n := by
  simp [State.readBytes]

end Sys2Proof.Machine
end

