-- ==== Sys2Proof/Laws/Graphics.lean ====
section
/-! SUPPORT. The laws of the display: a pixel after a write, the dots of a sprite, and what a plot does to a pixel. -/

namespace Sys2Proof.Machine

open Sys2Proof

theorem pixel_setPixel (d : Display) (r r' : Fin 32) (c c' : Fin 64) (b : Bool) :
    pixel (setPixel d r c b) r' c' = if r = r' ∧ c = c' then b else pixel d r' c' := by
  simp only [pixel, setPixel, Vector.getElem_set, Fin.ext_iff]
  by_cases hr : r.val = r'.val
  · simp [hr, Vector.getElem_set]
  · simp [hr]

/-- A coordinate along an axis is placed exactly where it lands (43_graphics R161). -/
theorem place_eq_some (wrap : Bool) (size : Nat) [NeZero size] (start k : Nat) (q : Fin size) :
    place wrap size (start + k) = some q ↔ lands wrap size start k q.val := by
  unfold place lands
  cases wrap
  · simp only [Bool.false_eq_true, if_false]
    split
    · simp [Fin.ext_iff]
    · have := q.isLt; simp; omega
  · simp [Fin.ext_iff]

/-- The dots of a sprite are its bits that land on the display (43_graphics R161). -/
theorem mem_spriteDots (wrap : Bool) (x0 y0 : Nat) (rows : List Byte) (t : Dot) :
    t ∈ spriteDots wrap x0 y0 rows ↔
      ∃ k j, ∃ hk : k < rows.length, j < 8 ∧ lands wrap 32 y0 k t.row.val ∧ lands wrap 64 x0 j t.col.val ∧
        t.bit = rows[k].getLsbD (7 - j) := by
  obtain ⟨r, c, b⟩ := t
  simp only [spriteDots, List.mem_flatMap, List.mem_filterMap, List.mem_range, Prod.exists,
    List.mem_zipIdx_iff_getElem?, List.getElem?_eq_some_iff]
  constructor
  · rintro ⟨x, k, ⟨hk, hx⟩, j, hj, h⟩
    unfold spriteDot at h
    split at h
    · next r' c' hr hc =>
      simp only [Option.some.injEq, Dot.mk.injEq] at h
      obtain ⟨rfl, rfl, rfl⟩ := h
      exact ⟨k, j, hk, hj, (place_eq_some ..).1 hr, (place_eq_some ..).1 hc, by rw [hx]⟩
    · cases h
  · rintro ⟨k, j, hk, hj, hr, hc, hb⟩
    refine ⟨rows[k], k, ⟨hk, rfl⟩, j, hj, ?_⟩
    simp only [spriteDot, (place_eq_some ..).2 hr, (place_eq_some ..).2 hc, hb]

/-- A pixel no dot stands on keeps its value through a plot. -/
theorem pixel_plot_of_not_mem (d dnew : Display) (dots : List Dot) (r : Fin 32) (c : Fin 64)
    (h : ∀ t ∈ dots, ¬ (t.row = r ∧ t.col = c)) :
    pixel (dots.foldl (fun e t => setPixel e t.row t.col (pixel d t.row t.col ^^ t.bit)) dnew) r c = pixel dnew r c := by
  induction dots generalizing dnew with
  | nil => rfl
  | cons t ts ih =>
    rw [List.foldl_cons, ih _ fun u hu => h u (List.mem_cons_of_mem _ hu), pixel_setPixel,
      if_neg (h t List.mem_cons_self)]

/-- A pixel that exactly one dot stands on takes its old value XOR the dot's bit. -/
theorem pixel_plot_of_mem (d dnew : Display) (dots : List Dot) (t : Dot) (ht : t ∈ dots)
    (h : dots.Pairwise fun a b => (a.row, a.col) ≠ (b.row, b.col)) :
    pixel (dots.foldl (fun e u => setPixel e u.row u.col (pixel d u.row u.col ^^ u.bit)) dnew) t.row t.col =
      (pixel d t.row t.col ^^ t.bit) := by
  induction dots generalizing dnew with
  | nil => cases ht
  | cons u us ih =>
    rw [List.pairwise_cons] at h
    rw [List.foldl_cons]
    rcases List.mem_cons.1 ht with rfl | ht
    · rw [pixel_plot_of_not_mem, pixel_setPixel, if_pos ⟨rfl, rfl⟩]
      exact fun v hv hvt => h.1 v hv (Prod.ext hvt.1.symm hvt.2.symm)
    · exact ih _ ht h.2

end Sys2Proof.Machine
end

