-- ==== Sys2Proof/Laws/Registers.lean ====
section
/-! SUPPORT. The laws of the register file and of the call stack: what a read gives after a write, a push and a pop. -/

namespace Sys2Proof.Machine

open Sys2Proof

theorem State.readV_writeV (s : State) (x y : Reg) (a : Byte) :
    (s.writeV x a).readV y = if y = x then a else s.readV y := by
  have hxy : y = x ↔ x.toNat = y.toNat := by rw [eq_comm, BitVec.toNat_inj]
  simp only [State.readV, State.writeV_v, Vector.getElem_set, hxy]

@[simp] theorem State.readV_advance (s : State) (x : Reg) : s.advance.readV x = s.readV x := rfl

@[simp] theorem State.readV_advanceSkipping (s : State) (c : Bool) (x : Reg) :
    (s.advanceSkipping c).readV x = s.readV x := by cases c <;> rfl

@[simp] theorem State.readV_writeDisplay (s : State) (d : Display) (x : Reg) :
    (s.writeDisplay d).readV x = s.readV x := rfl

@[simp] theorem State.readV_writeI (s : State) (a : Word) (x : Reg) : (s.writeI a).readV x = s.readV x := rfl

@[simp] theorem State.readV_writePc (s : State) (a : Word) (x : Reg) : (s.writePc a).readV x = s.readV x := rfl

@[simp] theorem State.readV_stepI (s : State) (y x : Reg) : (s.stepI y).readV x = s.readV x := by
  unfold State.stepI; split <;> rfl

/-- After a flag and a result are committed: the result in Vx, else the flag in VF (00_scope R10). -/
theorem State.readV_commitFlagThenResult (s : State) (x y : Reg) (f r : Byte) :
    (s.commitFlagThenResult x f r).readV y = if y = x then r else if y = flagReg then f else s.readV y := by
  simp only [State.commitFlagThenResult, State.readV_writeV]

/-- The registers after Fx65's load: the byte of the same number where there is one (42_memory_index R145). -/
theorem State.readV_loadRegisters (s : State) (xs : List Byte) (y : Reg) :
    (s.loadRegisters xs).readV y = xs.getD y.toNat (s.readV y) := by
  simp [State.readV, State.loadRegisters_v]

/-- All that a push can do (10_state R26). -/
theorem State.push_cases (s : State) (a : Word) :
    (∃ k : Fin 16, s.sp.val = k.val ∧
        s.push a = some { s with sp := k.succ, stack := s.stack.set k.val a }) ∨
      (s.sp.val = 16 ∧ s.push a = none) := by
  unfold State.push
  by_cases h : s.sp.val < 16
  · exact .inl ⟨⟨s.sp.val, h⟩, rfl, by rw [dif_pos h]; rfl⟩
  · exact .inr ⟨by omega, by rw [dif_neg h]⟩

/-- All that a pop can do (10_state R27). -/
theorem State.pop_cases (s : State) :
    (∃ k : Fin 16, s.sp.val = k.val + 1 ∧
        s.pop = some (s.stack[k.val], { s with sp := k.castSucc, stack := s.stack.set k.val 0 })) ∨
      (s.sp.val = 0 ∧ s.pop = none) := by
  unfold State.pop
  by_cases h : 0 < s.sp.val
  · refine .inl ⟨⟨s.sp.val - 1, by omega⟩, by simp only; omega, ?_⟩
    rw [dif_pos h]
    rfl
  · exact .inr ⟨by omega, by rw [dif_neg h]⟩

end Sys2Proof.Machine
end

