-- ==== Sys2Proof/Laws/Operands.lean ====
section
/-! SUPPORT. One lemma per operand form and per access at I: what it reads, what it writes, when it is in range. -/

namespace Sys2Proof.Machine

open Sys2Proof

theorem flagByte_decide (c : Prop) [Decidable c] : flagByte (decide c) = if c then 1 else 0 := by
  by_cases h : c <;> simp [flagByte, h]

/-- The digits of a byte, as numbers (42_memory_index R143). -/
theorem decimalDigits_toNat (a : Byte) :
    (decimalDigits a).map BitVec.toNat = [a.toNat / 100, a.toNat / 10 % 10, a.toNat % 10] := by
  have ha : a.toNat < 256 := a.isLt
  simp only [decimalDigits, List.map_cons, List.map_nil, BitVec.toNat_ofNat, List.cons.injEq, and_true]
  exact ⟨Nat.mod_eq_of_lt (by omega), Nat.mod_eq_of_lt (by omega), Nat.mod_eq_of_lt (by omega)⟩

@[simp] theorem decimalDigits_length (a : Byte) : (decimalDigits a).length = 3 := rfl

@[simp] theorem State.registersThrough_length (s : State) (x : Reg) :
    (s.registersThrough x).length = x.toNat + 1 := by
  have : x.toNat < 16 := x.isLt
  simp [State.registersThrough]
  omega

/-- The `k`-th value that Fx55 stores is Vk (42_memory_index R144). -/
theorem State.registersThrough_getD (s : State) (x k : Reg) (h : k.toNat ≤ x.toNat) (d : Byte) :
    (s.registersThrough x).getD k.toNat d = s.readV k := by
  have : k.toNat < 16 := k.isLt
  simp [State.registersThrough, State.readV, List.getD, Nat.lt_succ_of_le h, this]

theorem State.readBytes_getD (s : State) (a n k : Nat) (d : Byte) :
    (s.readBytes a n).getD k d = if k < n then s.readByte (a + k) else d := by
  simp only [State.readBytes, List.getD, List.getElem?_map]
  split <;> simp_all

theorem State.storeAtI_of_inRange (s : State) (xs : List Byte) (h : xs.length = 0 ∨ s.i.toNat + xs.length ≤ 4096) :
    s.storeAtI xs = some (s.writeBytes s.i.toNat xs) := by
  unfold State.storeAtI inRange
  rw [if_pos (by simpa using h)]

theorem State.storeAtI_of_outside (s : State) (xs : List Byte) (h0 : xs.length ≠ 0)
    (h : 4096 < s.i.toNat + xs.length) : s.storeAtI xs = none := by
  unfold State.storeAtI inRange
  rw [if_neg (by rw [decide_eq_true_eq]; omega)]

theorem State.loadAtI_of_inRange (s : State) (n : Nat) (h : n = 0 ∨ s.i.toNat + n ≤ 4096) :
    s.loadAtI n = some (s.readBytes s.i.toNat n) := by
  unfold State.loadAtI inRange
  rw [if_pos (by simpa using h)]

theorem State.loadAtI_of_outside (s : State) (n : Nat) (h0 : n ≠ 0) (h : 4096 < s.i.toNat + n) :
    s.loadAtI n = none := by
  unfold State.loadAtI inRange
  rw [if_neg (by rw [decide_eq_true_eq]; omega)]

/-- A run of stores changes nothing but memory. -/
theorem State.writeBytes_eq (s : State) (a : Nat) (xs : List Byte) :
    s.writeBytes a xs = { s with mem := (s.writeBytes a xs).mem } := by
  induction xs generalizing s a with
  | nil => rfl
  | cons x xs ih => rw [State.writeBytes, ih]; rfl

@[simp] theorem State.readByte_stepI (s : State) (x : Reg) (a : Nat) : (s.stepI x).readByte a = s.readByte a := by
  unfold State.stepI; split <;> rfl

@[simp] theorem State.readByte_advance (s : State) (a : Nat) : s.advance.readByte a = s.readByte a := rfl

/-- The least key down is the one below which every key is up (44_timers_keypad R175). -/
theorem leastKeyDown_eq_some (keys : BitVec 16) (k : Nat) :
    leastKeyDown keys = some k ↔ keys.getLsbD k = true ∧ k < 16 ∧ ∀ j < k, keys.getLsbD j = false := by
  unfold leastKeyDown
  rw [List.find?_range_eq_some]
  simp

theorem leastKeyDown_eq_none (keys : BitVec 16) : leastKeyDown keys = none ↔ keys = 0 := by
  unfold leastKeyDown
  rw [List.find?_eq_none]
  constructor
  · intro h
    apply BitVec.eq_of_getLsbD_eq
    intro k hk
    simpa using h k (List.mem_range.2 hk)
  · rintro rfl
    simp

end Sys2Proof.Machine
end

