-- ==== Sys2Proof/Laws/Exec.lean ====
section
/-! SUPPORT. For each instruction that may stop or branch, all that it can answer: one inversion lemma each for the next state
and for the fault. The other instructions are one equation by rfl. -/

namespace Sys2Proof.Machine

open Sys2Proof

/-! ### The next state -/

theorem execRet_next {s t : State} (h : execRet s = .next t) :
    ∃ top : Fin 16, s.sp.val = top.val + 1 ∧
      t = { s with pc := s.stack[top.val], sp := top.castSucc, stack := s.stack.set top.val 0x0000 } := by
  unfold execRet at h
  rcases s.pop_cases with ⟨k, hk, hp⟩ | ⟨_, hp⟩ <;> rw [hp] at h <;> cases h
  exact ⟨k, hk, rfl⟩

theorem execCall_next {nnn : Addr} {s t : State} (h : execCall nnn s = .next t) :
    ∃ free : Fin 16, s.sp.val = free.val ∧
      t = { s with pc := nnn.setWidth 16, sp := free.succ, stack := s.stack.set free.val (s.pc + 2) } := by
  unfold execCall at h
  rcases s.push_cases s.advance.pc with ⟨k, hk, hp⟩ | ⟨_, hp⟩ <;> rw [hp] at h <;> cases h
  exact ⟨k, hk, rfl⟩

theorem execSkp_next {x : Reg} {s t : State} (h : execSkp x s = .next t) :
    s.params.keypadPresent = true ∧ t = s.advanceSkipping (s.keyDown (s.readV x)) := by
  unfold execSkp at h
  split at h <;> cases h
  exact ⟨by assumption, rfl⟩

theorem execSknp_next {x : Reg} {s t : State} (h : execSknp x s = .next t) :
    s.params.keypadPresent = true ∧ t = s.advanceSkipping (!s.keyDown (s.readV x)) := by
  unfold execSknp at h
  split at h <;> cases h
  exact ⟨by assumption, rfl⟩

/-- Fx0A waits, changing nothing at all, or takes the least key (44_timers_keypad R175). -/
theorem execLdVxK_next {x : Reg} {s t : State} (h : execLdVxK x s = .next t) :
    s.params.keypadPresent = true ∧
      ((s.keys = 0 ∧ t = s) ∨
        ∃ k, leastKeyDown s.keys = some k ∧ t = s.advance.writeV x (BitVec.ofNat 8 k)) := by
  unfold execLdVxK at h
  split at h
  · next hp =>
    refine ⟨hp, ?_⟩
    split at h <;> cases h
    · next k hk => exact .inr ⟨k, hk, rfl⟩
    · next hk => exact .inl ⟨(leastKeyDown_eq_none _).1 hk, rfl⟩
  · cases h

theorem execDrw_next {x y : Reg} {n : Nibble} {s t : State} (h : execDrw x y n s = .next t) :
    ∃ flag d, t = (s.advance.writeV flagReg flag).writeDisplay d := by
  unfold execDrw at h
  split at h <;> cases h
  exact ⟨_, _, rfl⟩

theorem execLdBVx_next {x : Reg} {s t : State} (h : execLdBVx x s = .next t) :
    s.i.toNat + 3 ≤ 4096 ∧ t = s.advance.writeBytes s.i.toNat (decimalDigits (s.readV x)) := by
  unfold execLdBVx at h
  rcases s.advance.storeAtI_cases (decimalDigits (s.readV x)) with ⟨hr, e⟩ | ⟨_, e⟩ <;> rw [e] at h <;> cases h
  have hr := of_decide_eq_true hr
  rw [decimalDigits_length, State.advance_i] at hr
  exact ⟨by omega, rfl⟩

theorem execLdMemVx_next {x : Reg} {s t : State} (h : execLdMemVx x s = .next t) :
    s.i.toNat + (x.toNat + 1) ≤ 4096 ∧
      t = (s.advance.writeBytes s.i.toNat (s.registersThrough x)).stepI x := by
  unfold execLdMemVx at h
  rcases s.advance.storeAtI_cases (s.registersThrough x) with ⟨hr, e⟩ | ⟨_, e⟩ <;> rw [e] at h <;> cases h
  have hr := of_decide_eq_true hr
  rw [State.registersThrough_length, State.advance_i] at hr
  exact ⟨by omega, rfl⟩

theorem execLdVxMem_next {x : Reg} {s t : State} (h : execLdVxMem x s = .next t) :
    s.i.toNat + (x.toNat + 1) ≤ 4096 ∧
      t = (s.advance.loadRegisters (s.readBytes s.i.toNat (x.toNat + 1))).stepI x := by
  unfold execLdVxMem at h
  rcases s.loadAtI_cases (x.toNat + 1) with ⟨hr, e⟩ | ⟨_, e⟩ <;> rw [e] at h <;> cases h
  have hr := of_decide_eq_true hr
  exact ⟨by omega, rfl⟩

/-! ### The fault -/

theorem execRet_fault {s : State} {f : Fault} (h : execRet s = .fault f) :
    s.sp.val = 0 ∧ f = .stackUnderflow s.pc (encode .ret) := by
  unfold execRet at h
  rcases s.pop_cases with ⟨k, hk, hp⟩ | ⟨h0, hp⟩ <;> rw [hp] at h <;> cases h
  exact ⟨h0, rfl⟩

theorem execCall_fault {nnn : Addr} {s : State} {f : Fault} (h : execCall nnn s = .fault f) :
    s.sp.val = 16 ∧ f = .stackOverflow s.pc (encode (.call nnn)) := by
  unfold execCall at h
  rcases s.push_cases s.advance.pc with ⟨k, hk, hp⟩ | ⟨h0, hp⟩ <;> rw [hp] at h <;> cases h
  exact ⟨h0, rfl⟩

theorem execSkp_fault {x : Reg} {s : State} {f : Fault} (h : execSkp x s = .fault f) :
    s.params.keypadPresent = false ∧ f = .unsupportedOperation s.pc (encode (.skp x)) := by
  unfold execSkp at h
  split at h <;> cases h
  exact ⟨by simp_all, rfl⟩

theorem execSknp_fault {x : Reg} {s : State} {f : Fault} (h : execSknp x s = .fault f) :
    s.params.keypadPresent = false ∧ f = .unsupportedOperation s.pc (encode (.sknp x)) := by
  unfold execSknp at h
  split at h <;> cases h
  exact ⟨by simp_all, rfl⟩

theorem execLdVxK_fault {x : Reg} {s : State} {f : Fault} (h : execLdVxK x s = .fault f) :
    s.params.keypadPresent = false ∧ f = .unsupportedOperation s.pc (encode (.ldVxK x)) := by
  unfold execLdVxK at h
  split at h
  · split at h <;> cases h
  · cases h
    exact ⟨by simp_all, rfl⟩

theorem execDrw_fault {x y : Reg} {n : Nibble} {s : State} {f : Fault} (h : execDrw x y n s = .fault f) :
    f = .memOutOfBounds s.pc (encode (.drw x y n)) (firstOutside s.i) := by
  unfold execDrw at h
  split at h <;> cases h
  rfl

theorem execLdBVx_fault {x : Reg} {s : State} {f : Fault} (h : execLdBVx x s = .fault f) :
    f = .memOutOfBounds s.pc (encode (.ldBVx x)) (firstOutside s.i) := by
  unfold execLdBVx at h
  split at h <;> cases h
  rfl

theorem execLdMemVx_fault {x : Reg} {s : State} {f : Fault} (h : execLdMemVx x s = .fault f) :
    f = .memOutOfBounds s.pc (encode (.ldMemVx x)) (firstOutside s.i) := by
  unfold execLdMemVx at h
  split at h <;> cases h
  rfl

theorem execLdVxMem_fault {x : Reg} {s : State} {f : Fault} (h : execLdVxMem x s = .fault f) :
    f = .memOutOfBounds s.pc (encode (.ldVxMem x)) (firstOutside s.i) := by
  unfold execLdVxMem at h
  split at h <;> cases h
  rfl

/-! ### The step -/

/-- All that a step which answers a next state can do: it fetched at a PC up to 0xFFE, decoded, and ran the instruction. -/
theorem step_next {s t : State} (h : step s = .next t) :
    ∃ w i u, s.pc.toNat ≤ 0xFFE ∧ s.fetch = .ok w ∧ decodeWord w = .ok i ∧ exec i s = .next u ∧ t = u.drawInputs := by
  unfold step at h
  split at h
  · cases h
  · next w hf =>
    split at h
    · cases h
    · next i hd =>
      cases he : exec i s with
      | next u =>
        rw [he] at h
        cases h
        refine ⟨w, i, u, ?_, hf, hd, he, rfl⟩
        unfold State.fetch at hf
        split at hf
        · omega
        · cases hf
      | fault f => rw [he] at h; cases h
      | refused r => rw [he] at h; cases h

end Sys2Proof.Machine
end

