-- ==== Sys2Proof/Laws/Inputs.lean ====
section
/-! SUPPORT. The shared operations that read neither ST nor the inputs commute with a change of one of them
(10_state R28, 40_control_flow R100). -/

namespace Sys2Proof.Machine

open Sys2Proof

/-! ### st -/

theorem State.advanceSkipping_with_st (s : State) (a : Byte) (c : Bool) :
    { s with st := a }.advanceSkipping c = { s.advanceSkipping c with st := a } := by cases c <;> rfl

theorem State.writeBytes_with_st (s : State) (a : Byte) (b : Nat) (xs : List Byte) :
    { s with st := a }.writeBytes b xs = { s.writeBytes b xs with st := a } := by
  induction xs generalizing s b with
  | nil => rfl
  | cons x xs ih => exact ih (s.writeByte b x) (b + 1)

theorem State.stepI_with_st (s : State) (a : Byte) (x : Reg) :
    { s with st := a }.stepI x = { s.stepI x with st := a } := by
  unfold State.stepI
  cases h : s.params.quirkLoadStoreKeepI <;> simp [State.writeI]

/-! ### rnd -/

theorem State.advanceSkipping_with_rnd (s : State) (a : Byte) (c : Bool) :
    { s with rnd := a }.advanceSkipping c = { s.advanceSkipping c with rnd := a } := by cases c <;> rfl

theorem State.writeBytes_with_rnd (s : State) (a : Byte) (b : Nat) (xs : List Byte) :
    { s with rnd := a }.writeBytes b xs = { s.writeBytes b xs with rnd := a } := by
  induction xs generalizing s b with
  | nil => rfl
  | cons x xs ih => exact ih (s.writeByte b x) (b + 1)

theorem State.stepI_with_rnd (s : State) (a : Byte) (x : Reg) :
    { s with rnd := a }.stepI x = { s.stepI x with rnd := a } := by
  unfold State.stepI
  cases h : s.params.quirkLoadStoreKeepI <;> simp [State.writeI]

/-! ### keys -/

theorem State.advanceSkipping_with_keys (s : State) (a : BitVec 16) (c : Bool) :
    { s with keys := a }.advanceSkipping c = { s.advanceSkipping c with keys := a } := by cases c <;> rfl

theorem State.writeBytes_with_keys (s : State) (a : BitVec 16) (b : Nat) (xs : List Byte) :
    { s with keys := a }.writeBytes b xs = { s.writeBytes b xs with keys := a } := by
  induction xs generalizing s b with
  | nil => rfl
  | cons x xs ih => exact ih (s.writeByte b x) (b + 1)

theorem State.stepI_with_keys (s : State) (a : BitVec 16) (x : Reg) :
    { s with keys := a }.stepI x = { s.stepI x with keys := a } := by
  unfold State.stepI
  cases h : s.params.quirkLoadStoreKeepI <;> simp [State.writeI]

end Sys2Proof.Machine
end

