-- ==== Sys2Proof/Laws/PerInstr.lean ====
section
/-! SUPPORT. The per-instruction family RowOf: an instruction's word selects the instruction's own row of the opcode map
(30_encoding R85), and that row stands in the map. -/

namespace Sys2Proof.Laws

open Sys2Proof

/-! ### The words of a format select the rows of that format (30_encoding R83) -/

theorem row_formatA (op : BitVec 4) (nnn : Addr) : formatA op nnn &&& 0xF000#16 = op ++ 0x000#12 := by
  refine (BitVec.and_append (x₁ := op) (y₁ := nnn) (x₂ := 0xF#4) (y₂ := 0x000#12)).trans ?_
  rw [show op &&& 0xF#4 = op from BitVec.and_allOnes, BitVec.and_zero]

theorem row_formatXI (op : BitVec 4) (x : Reg) (nn : Byte) : formatXI op x nn &&& 0xF000#16 = op ++ 0x000#12 :=
  row_formatA op (x ++ nn)

theorem row_formatXYN (op : BitVec 4) (x y : Reg) (n : Nibble) :
    formatXYN op x y n &&& 0xF000#16 = op ++ 0x000#12 := row_formatA op (x ++ (y ++ n))

theorem row_formatX (op : BitVec 4) (x : Reg) (nn : Byte) :
    formatXI op x nn &&& 0xF0FF#16 = op ++ (0x0#4 ++ nn) := by
  refine (BitVec.and_append (x₁ := op) (y₁ := x ++ nn) (x₂ := 0xF#4) (y₂ := 0x0#4 ++ 0xFF#8)).trans ?_
  rw [BitVec.and_append, show op &&& 0xF#4 = op from BitVec.and_allOnes, BitVec.and_zero,
    show nn &&& 0xFF#8 = nn from BitVec.and_allOnes]

theorem row_formatXY (op : BitVec 4) (x y : Reg) (n : Nibble) :
    formatXYN op x y n &&& 0xF00F#16 = op ++ (0x0#4 ++ (0x0#4 ++ n)) := by
  refine (BitVec.and_append (x₁ := op) (y₁ := x ++ (y ++ n)) (x₂ := 0xF#4) (y₂ := 0x0#4 ++ (0x0#4 ++ 0xF#4))).trans ?_
  rw [BitVec.and_append, BitVec.and_append, show op &&& 0xF#4 = op from BitVec.and_allOnes, BitVec.and_zero,
    BitVec.and_zero, show n &&& 0xF#4 = n from BitVec.and_allOnes]

/-! ### The family -/

/-- An instruction's word selects its own row of the opcode map (30_encoding R85). -/
def RowOf.Statement (i : Instr) : Prop := encode i &&& i.row.mask = i.row.value ∧ i.WellFormed = true

theorem RowOf.cls : RowOf.Statement .cls := ⟨rfl, by decide⟩
theorem RowOf.ret : RowOf.Statement .ret := ⟨rfl, by decide⟩
theorem RowOf.jp (nnn : Addr) : RowOf.Statement (.jp nnn) :=
  ⟨row_formatA _ _, rfl⟩
theorem RowOf.call (nnn : Addr) : RowOf.Statement (.call nnn) :=
  ⟨row_formatA _ _, rfl⟩
theorem RowOf.seImm (x : Reg) (nn : Byte) : RowOf.Statement (.seImm x nn) :=
  ⟨row_formatXI _ _ _, rfl⟩
theorem RowOf.sneImm (x : Reg) (nn : Byte) : RowOf.Statement (.sneImm x nn) :=
  ⟨row_formatXI _ _ _, rfl⟩
theorem RowOf.seReg (x y : Reg) : RowOf.Statement (.seReg x y) :=
  ⟨row_formatXY _ _ _ _, rfl⟩
theorem RowOf.ldImm (x : Reg) (nn : Byte) : RowOf.Statement (.ldImm x nn) :=
  ⟨row_formatXI _ _ _, rfl⟩
theorem RowOf.addImm (x : Reg) (nn : Byte) : RowOf.Statement (.addImm x nn) :=
  ⟨row_formatXI _ _ _, rfl⟩
theorem RowOf.ldReg (x y : Reg) : RowOf.Statement (.ldReg x y) :=
  ⟨row_formatXY _ _ _ _, rfl⟩
theorem RowOf.orReg (x y : Reg) : RowOf.Statement (.orReg x y) :=
  ⟨row_formatXY _ _ _ _, rfl⟩
theorem RowOf.andReg (x y : Reg) : RowOf.Statement (.andReg x y) :=
  ⟨row_formatXY _ _ _ _, rfl⟩
theorem RowOf.xorReg (x y : Reg) : RowOf.Statement (.xorReg x y) :=
  ⟨row_formatXY _ _ _ _, rfl⟩
theorem RowOf.addReg (x y : Reg) : RowOf.Statement (.addReg x y) :=
  ⟨row_formatXY _ _ _ _, rfl⟩
theorem RowOf.subReg (x y : Reg) : RowOf.Statement (.subReg x y) :=
  ⟨row_formatXY _ _ _ _, rfl⟩
theorem RowOf.shr (x y : Reg) : RowOf.Statement (.shr x y) :=
  ⟨row_formatXY _ _ _ _, rfl⟩
theorem RowOf.subn (x y : Reg) : RowOf.Statement (.subn x y) :=
  ⟨row_formatXY _ _ _ _, rfl⟩
theorem RowOf.shl (x y : Reg) : RowOf.Statement (.shl x y) :=
  ⟨row_formatXY _ _ _ _, rfl⟩
theorem RowOf.sneReg (x y : Reg) : RowOf.Statement (.sneReg x y) :=
  ⟨row_formatXY _ _ _ _, rfl⟩
theorem RowOf.ldI (nnn : Addr) : RowOf.Statement (.ldI nnn) :=
  ⟨row_formatA _ _, rfl⟩
theorem RowOf.jpV0 (nnn : Addr) : RowOf.Statement (.jpV0 nnn) :=
  ⟨row_formatA _ _, rfl⟩
theorem RowOf.rnd (x : Reg) (nn : Byte) : RowOf.Statement (.rnd x nn) :=
  ⟨row_formatXI _ _ _, rfl⟩
theorem RowOf.drw (x y : Reg) (n : Nibble) : RowOf.Statement (.drw x y n) :=
  ⟨row_formatXYN _ _ _ _, rfl⟩
theorem RowOf.skp (x : Reg) : RowOf.Statement (.skp x) :=
  ⟨row_formatX _ _ _, rfl⟩
theorem RowOf.sknp (x : Reg) : RowOf.Statement (.sknp x) :=
  ⟨row_formatX _ _ _, rfl⟩
theorem RowOf.ldVxDt (x : Reg) : RowOf.Statement (.ldVxDt x) :=
  ⟨row_formatX _ _ _, rfl⟩
theorem RowOf.ldVxK (x : Reg) : RowOf.Statement (.ldVxK x) :=
  ⟨row_formatX _ _ _, rfl⟩
theorem RowOf.ldDtVx (x : Reg) : RowOf.Statement (.ldDtVx x) :=
  ⟨row_formatX _ _ _, rfl⟩
theorem RowOf.ldStVx (x : Reg) : RowOf.Statement (.ldStVx x) :=
  ⟨row_formatX _ _ _, rfl⟩
theorem RowOf.addIVx (x : Reg) : RowOf.Statement (.addIVx x) :=
  ⟨row_formatX _ _ _, rfl⟩
theorem RowOf.ldFVx (x : Reg) : RowOf.Statement (.ldFVx x) :=
  ⟨row_formatX _ _ _, rfl⟩
theorem RowOf.ldBVx (x : Reg) : RowOf.Statement (.ldBVx x) :=
  ⟨row_formatX _ _ _, rfl⟩
theorem RowOf.ldMemVx (x : Reg) : RowOf.Statement (.ldMemVx x) :=
  ⟨row_formatX _ _ _, rfl⟩
theorem RowOf.ldVxMem (x : Reg) : RowOf.Statement (.ldVxMem x) :=
  ⟨row_formatX _ _ _, rfl⟩

end Sys2Proof.Laws
end

