-- ==== Sys2Proof/Tests/Slice0.lean ====
section
/-! SUPPORT. The model's own tests: the well-formedness smoke tests, one decoding per constructor, the spec's own test vectors
(T and S numbers of 95_test_vectors), and for every obligation with hypotheses a witness that meets them. -/

namespace Sys2Proof.Tests

open Sys2Proof Sys2Proof.Machine

/-! ### Helpers -/

/-- The reset state with FONT_BASE 0x50 (any admissible base would do: no vector depends on it unless it says so), no key down
and the random byte 0. -/
def base : State := State.resetWith (Params.withFontBase 0x50) 0x00 0x0000 0

/-- The base state with some registers set. -/
def withV (vs : List (Reg × Byte)) (s : State) : State := vs.foldl (fun t xa => t.writeV xa.1 xa.2) s

/-- The base state with some pixels lit. -/
def withPixels (ps : List (Fin 32 × Fin 64)) (s : State) : State :=
  { s with display := ps.foldl (fun d rc => setPixel d rc.1 rc.2 true) s.display }

/-- The pixels that are lit, row by row. -/
def litPixels (s : State) : List (Fin 32 × Fin 64) :=
  (List.finRange 32).flatMap fun r => ((List.finRange 64).filter fun c => pixel s.display r c).map fun c => (r, c)

/-- Places the word `w` at PC, takes one step, and checks the next state. -/
def after (s : State) (w : Nat) (check : State → Bool) : Bool :=
  match step (s.withFetchWord 16 w) with
  | .next t => check t
  | _ => false

/-- Places the word `w` at PC, takes one step, and checks that it ends in that fault. -/
def faults (s : State) (w : Nat) (f : Fault) : Bool :=
  match step (s.withFetchWord 16 w) with
  | .fault g => g == f
  | _ => false

/-- The base state with KEYPAD_PRESENT true and the given key levels. -/
def withKeys (keys : BitVec 16) : State :=
  { base with keys := keys, params := { base.params with keypadPresent := true } }

/-- The base state with DRAW_WRAP false. -/
def clipping : State := { base with params := { base.params with drawWrap := false } }

/-- The base state with all three quirk flags true. -/
def quirky : State :=
  { base with params := { base.params with quirkShiftVx := true, quirkLoadStoreKeepI := true, quirkJumpVx := true } }

/-! ### Well-formedness: each check refuses an ill-formed term -/

theorem test_wf_word : legalWord 0x8124 = true ∧ legalWord 0x5121 = false := by decide
theorem test_wf_row : OpcodeRow.wellFormed ⟨0xF00F, 0x5000⟩ = true ∧ OpcodeRow.wellFormed ⟨0xF000, 0x5001⟩ = false := by decide
theorem test_wf_apart : OpcodeRow.apartFrom ⟨0xFFFF, 0x00E0⟩ ⟨0xFFFF, 0x00EE⟩ = true ∧
    OpcodeRow.apartFrom ⟨0xF000, 0x5000⟩ ⟨0xF00F, 0x5001⟩ = false := by decide
theorem test_wf_selects : OpcodeRow.selects ⟨0xF00F, 0x8004⟩ 0x8124 = true ∧
    OpcodeRow.selects ⟨0xF00F, 0x8004⟩ 0x8125 = false := by decide
theorem test_wf_font_base : fontBaseAdmissible 0x1B0 = true ∧ fontBaseAdmissible 0x1B1 = false := by decide
/-- Every term of Instr is well-formed (its field widths stand in its type); a row outside the map would be refused. -/
theorem test_wf_instr : (Instr.drw 0xF 0xF 0xF).WellFormed = true ∧ opcodeMap.contains ⟨0xF00F, 0x8008⟩ = false := by decide
/-- 30_encoding R84: 34 rows, each within its mask, no two of them overlapping. -/
theorem test_wf_map : opcodeMap.length = 34 ∧ (∀ r ∈ opcodeMap, r.wellFormed = true) ∧
    opcodeMap.Pairwise (fun r t => r.apartFrom t = true) := by decide
theorem test_wf_memory : Memory.wf base.params [(0x300, 0x01), (0x301, 0x02)] ∧
    ¬ Memory.wf base.params [(0x301, 0x01), (0x300, 0x02)] ∧ ¬ Memory.wf base.params [(0x300, 0x00)] ∧
    ¬ Memory.wf base.params [(0x1000, 0x01)] := by decide

/-! ### Decoding: a word of every constructor, written out from the pattern column of 30_encoding R85 -/

theorem test_decode_control :
    decodeTableWord 16 0x00EE = some .ret ∧ decodeTableWord 16 0x1ABC = some (.jp 0xABC) ∧
    decodeTableWord 16 0x2ABC = some (.call 0xABC) ∧ decodeTableWord 16 0x3A5C = some (.seImm 0xA 0x5C) ∧
    decodeTableWord 16 0x4A5C = some (.sneImm 0xA 0x5C) ∧ decodeTableWord 16 0x5A60 = some (.seReg 0xA 0x6) ∧
    decodeTableWord 16 0x9A60 = some (.sneReg 0xA 0x6) ∧ decodeTableWord 16 0xBABC = some (.jpV0 0xABC) := by decide
theorem test_decode_arithmetic :
    decodeTableWord 16 0x6A3C = some (.ldImm 0xA 0x3C) ∧ decodeTableWord 16 0x7A3C = some (.addImm 0xA 0x3C) ∧
    decodeTableWord 16 0x8120 = some (.ldReg 0x1 0x2) ∧ decodeTableWord 16 0x8121 = some (.orReg 0x1 0x2) ∧
    decodeTableWord 16 0x8122 = some (.andReg 0x1 0x2) ∧ decodeTableWord 16 0x8123 = some (.xorReg 0x1 0x2) ∧
    decodeTableWord 16 0x8124 = some (.addReg 0x1 0x2) ∧ decodeTableWord 16 0x8125 = some (.subReg 0x1 0x2) := by decide
theorem test_decode_shift_random :
    decodeTableWord 16 0x8126 = some (.shr 0x1 0x2) ∧ decodeTableWord 16 0x8127 = some (.subn 0x1 0x2) ∧
    decodeTableWord 16 0x812E = some (.shl 0x1 0x2) ∧ decodeTableWord 16 0xC3F0 = some (.rnd 0x3 0xF0) := by decide
theorem test_decode_index :
    decodeTableWord 16 0xAABC = some (.ldI 0xABC) ∧ decodeTableWord 16 0xF21E = some (.addIVx 0x2) ∧
    decodeTableWord 16 0xF429 = some (.ldFVx 0x4) ∧ decodeTableWord 16 0xF533 = some (.ldBVx 0x5) ∧
    decodeTableWord 16 0xF355 = some (.ldMemVx 0x3) ∧ decodeTableWord 16 0xF265 = some (.ldVxMem 0x2) := by decide
theorem test_decode_graphics :
    decodeTableWord 16 0x00E0 = some .cls ∧ decodeTableWord 16 0xD12F = some (.drw 0x1 0x2 0xF) := by decide
theorem test_decode_timer_keypad :
    decodeTableWord 16 0xE19E = some (.skp 0x1) ∧ decodeTableWord 16 0xE1A1 = some (.sknp 0x1) ∧
    decodeTableWord 16 0xF307 = some (.ldVxDt 0x3) ∧ decodeTableWord 16 0xF20A = some (.ldVxK 0x2) ∧
    decodeTableWord 16 0xF315 = some (.ldDtVx 0x3) ∧ decodeTableWord 16 0xF318 = some (.ldStVx 0x3) := by decide
/-- 30_encoding R86 and T600 to T616: the illegal words, rejected by class. -/
theorem test_decode_illegal :
    decodeWord 0x0123 = .error .class0 ∧ decodeWord 0x01E0 = .error .class0 ∧ decodeWord 0x5121 = .error .class5 ∧
    decodeWord 0x8128 = .error .class8 ∧ decodeWord 0x812F = .error .class8 ∧ decodeWord 0x9121 = .error .class9 ∧
    decodeWord 0xE19F = .error .classE ∧ decodeWord 0xF175 = .error .classF ∧ decode [0x12] = .error .truncated := by decide
/-- 30_encoding R91: the same words from the encoder. -/
theorem test_encode_worked : encode (.ldImm 0xA 0x3C) = 0x6A3C ∧ encode (.drw 0x0 0x1 0x5) = 0xD015 ∧
    encodeBytes (.ldMemVx 0x3) = [0xF3, 0x55] := by decide

/-! ### Control flow (95_test_vectors 2.1) -/

theorem test_T100 : after base 0x1ABC (fun t => t.pc == 0x0ABC) = true := by decide
theorem test_T102 : after base 0x2300 (fun t => t.pc == 0x0300 && t.sp == 1 && t.stack[0] == 0x0202) = true := by decide
theorem test_T104 : faults { base with sp := 16, stack := Vector.replicate 16 0x0222 } 0x2300 (.stackOverflow 0x0200 0x2300)
    = true := by decide
theorem test_T105 : after { base with pc := 0x0300, sp := 1, stack := base.stack.set 0 0x0456 } 0x00EE
    (fun t => t.pc == 0x0456 && t.sp == 0 && t.stack[0] == 0x0000) = true := by decide
theorem test_T106 : faults base 0x00EE (.stackUnderflow 0x0200 0x00EE) = true := by decide
theorem test_T107 : after (withV [(0x3, 0x2A)] base) 0x332A (fun t => t.pc == 0x0204) = true := by decide
theorem test_T108 : after (withV [(0x3, 0x2B)] base) 0x332A (fun t => t.pc == 0x0202) = true := by decide
theorem test_T109 : after (withV [(0x3, 0x2B)] base) 0x432A (fun t => t.pc == 0x0204) = true := by decide
theorem test_T110 : after (withV [(0x3, 0x2A)] base) 0x432A (fun t => t.pc == 0x0202) = true := by decide
theorem test_T112 : after (withV [(0xA, 0x77)] base) 0x5AA0 (fun t => t.pc == 0x0204) = true := by decide
theorem test_T113 : after (withV [(0x1, 0x07), (0x2, 0x08)] base) 0x5120 (fun t => t.pc == 0x0202) = true := by decide
theorem test_T114 : after (withV [(0xA, 0x77)] base) 0x9AA0 (fun t => t.pc == 0x0202) = true := by decide
theorem test_T115 : after (withV [(0x1, 0x07), (0x2, 0x08)] base) 0x9120 (fun t => t.pc == 0x0204) = true := by decide
theorem test_T117 : after (withV [(0x0, 0xFF)] base) 0xBFFF (fun t => t.pc == 0x10FE) = true := by decide
theorem test_T119 : after (withV [(0x0, 0x01), (0x3, 0x10)] quirky) 0xB3F0 (fun t => t.pc == 0x0400) = true := by decide
theorem test_T122 : step { base.writeByte 0xFFF 0x60 with pc := 0x0FFF } = .fault (.fetchOutOfBounds 0x0FFF 0x1000) := rfl

/-! ### Arithmetic (95_test_vectors 2.2) -/

theorem test_T200 : after (withV [(0x1, 0xFA), (0x2, 0x0A)] base) 0x8124
    (fun t => t.pc == 0x0202 && t.readV 0x1 == 0x04 && t.readV 0xF == 0x01) = true := by decide
theorem test_T204 : after (withV [(0xF, 0xC8), (0x1, 0x64)] base) 0x8F14 (fun t => t.readV 0xF == 0x2C) = true := by decide
theorem test_T206 : after (withV [(0x1, 0x05), (0x2, 0x0A), (0xF, 0x01)] base) 0x8125
    (fun t => t.readV 0x1 == 0xFB && t.readV 0xF == 0x00) = true := by decide
theorem test_T208 : after (withV [(0x1, 0x07), (0x2, 0x07)] base) 0x8125
    (fun t => t.readV 0x1 == 0x00 && t.readV 0xF == 0x01) = true := by decide
theorem test_T210 : after (withV [(0x1, 0x0A), (0x2, 0x05), (0xF, 0x01)] base) 0x8127
    (fun t => t.readV 0x1 == 0xFB && t.readV 0xF == 0x00) = true := by decide
theorem test_T211 : after (withV [(0x1, 0x05), (0x2, 0x0A)] base) 0x8127
    (fun t => t.readV 0x1 == 0x05 && t.readV 0xF == 0x01) = true := by decide
theorem test_T212 : after (withV [(0x1, 0xAA), (0x2, 0x05)] base) 0x8126
    (fun t => t.readV 0x1 == 0x02 && t.readV 0x2 == 0x05 && t.readV 0xF == 0x01) = true := by decide
theorem test_T213 : after (withV [(0x1, 0xAA), (0x2, 0x05), (0xF, 0x01)] quirky) 0x8126
    (fun t => t.readV 0x1 == 0x55 && t.readV 0xF == 0x00) = true := by decide
theorem test_T217 : after (withV [(0x1, 0x40), (0x2, 0xC0)] base) 0x812E
    (fun t => t.readV 0x1 == 0x80 && t.readV 0xF == 0x01) = true := by decide
theorem test_T218 : after (withV [(0x1, 0x40), (0x2, 0xC0), (0xF, 0x01)] quirky) 0x812E
    (fun t => t.readV 0x1 == 0x80 && t.readV 0xF == 0x00) = true := by decide
theorem test_T220 : after base 0x6F07 (fun t => t.pc == 0x0202 && t.readV 0xF == 0x07) = true := by decide
theorem test_T221 : after (withV [(0x1, 0x02), (0xF, 0xAA)] base) 0x71FF
    (fun t => t.readV 0x1 == 0x01 && t.readV 0xF == 0xAA) = true := by decide
theorem test_T223 : after (withV [(0x2, 0x7E)] base) 0x8120 (fun t => t.readV 0x1 == 0x7E) = true := by decide
theorem test_T224 : after (withV [(0x1, 0xF0), (0x2, 0x0F), (0xF, 0x55)] base) 0x8121
    (fun t => t.readV 0x1 == 0xFF && t.readV 0xF == 0x55) = true := by decide
theorem test_T225 : after (withV [(0x1, 0xF0), (0x2, 0x3C), (0xF, 0x55)] base) 0x8122
    (fun t => t.readV 0x1 == 0x30 && t.readV 0xF == 0x55) = true := by decide
theorem test_T226 : after (withV [(0x1, 0xF0), (0x2, 0x3C), (0xF, 0x55)] base) 0x8123
    (fun t => t.readV 0x1 == 0xCC && t.readV 0xF == 0x55) = true := by decide
theorem test_T228 : after { base with rnd := 0xA7 } 0xC30F (fun t => t.readV 0x3 == 0x07) = true := by decide
theorem test_T231 : after { base with rnd := 0x80 } 0xCFFF (fun t => t.readV 0xF == 0x80) = true := by decide

/-! ### Index register and memory (95_test_vectors 2.3) -/

theorem test_T301 : after { base with i := 0xFFFF } 0xAFFF (fun t => t.i == 0x0FFF) = true := by decide
theorem test_T305 : after (withV [(0x2, 0xFF)] { base with i := 0x0F01 }) 0xF21E
    (fun t => t.i == 0x1000 && t.readV 0xF == 0x01) = true := by decide
theorem test_T308 : after (withV [(0xF, 0x05)] { base with i := 0x0100 }) 0xFF1E
    (fun t => t.i == 0x0105 && t.readV 0xF == 0x00) = true := by decide
theorem test_T309 : after (withV [(0x5, 0x9C)] { base with i := 0x0300 }) 0xF533
    (fun t => t.readBytes 0x300 4 == [0x01, 0x05, 0x06, 0x00] && t.i == 0x0300) = true := by decide
theorem test_T314 : faults (withV [(0x5, 0x7B)] { base with i := 0x0FFE }) 0xF533 (.memOutOfBounds 0x0200 0xF533 0x1000)
    = true := by decide
theorem test_T316 : after (withV [(0x0, 0x11), (0x1, 0x22), (0x2, 0x33), (0x3, 0x44)] { base with i := 0x0400 }) 0xF255
    (fun t => t.readBytes 0x400 4 == [0x11, 0x22, 0x33, 0x00] && t.i == 0x0403) = true := by decide
theorem test_T317 : after (withV [(0x0, 0x11), (0x1, 0x22), (0x2, 0x33)] { quirky with i := 0x0400 }) 0xF255
    (fun t => t.readBytes 0x400 3 == [0x11, 0x22, 0x33] && t.i == 0x0400) = true := by decide
theorem test_T321 : after (withV [(0x3, 0x99)] ({ base with i := 0x0400 }.writeBytes 0x400 [0x11, 0x22, 0x33, 0x44])) 0xF265
    (fun t => t.v.toList.take 4 == [0x11, 0x22, 0x33, 0x99] && t.i == 0x0403) = true := by decide
theorem test_T326 : after { base with i := 0x0200 } 0xF165
    (fun t => t.readV 0x0 == 0xF1 && t.readV 0x1 == 0x65 && t.i == 0x0202) = true := by decide
/-- T330 and T333 with FONT_BASE 0x50. -/
theorem test_T333 : after (withV [(0x4, 0x0A)] base) 0xF429 (fun t => t.i == 0x50 + 50) = true ∧
    after (withV [(0x4, 0x10)] base) 0xF429 (fun t => t.i == 0x50 + 80) = true := by decide

/-! ### Graphics (95_test_vectors 2.4) -/

theorem test_T400 : after (withPixels [(0, 0), (31, 63), (10, 20)] (withV [(0xF, 0x01)] base)) 0x00E0
    (fun t => litPixels t == [] && t.readV 0xF == 0x01 && t.pc == 0x0202) = true := by decide
theorem test_T402 : after (withV [(0x0, 0x3E), (0x1, 0x1F)] ({ base with i := 0x0300 }.writeByte 0x300 0xF0)) 0xD011
    (fun t => litPixels t == [(31, 0), (31, 1), (31, 62), (31, 63)] && t.readV 0xF == 0x00) = true := by decide
theorem test_T403 : after (withV [(0x0, 0x3E), (0x1, 0x1F)] ({ clipping with i := 0x0300 }.writeByte 0x300 0xF0)) 0xD011
    (fun t => litPixels t == [(31, 62), (31, 63)]) = true := by decide

/-! ### Timers and keypad (95_test_vectors 2.5) -/

theorem test_T500 : after (withV [(0x3, 0x3C)] base) 0xF315 (fun t => t.dt == 0x3C) = true := by decide
theorem test_T501 : after { base with dt := 0x1E } 0xF307 (fun t => t.readV 0x3 == 0x1E && t.dt == 0x1E) = true := by decide
theorem test_T502 : after (withV [(0x3, 0x05)] base) 0xF318 (fun t => t.st == 0x05) = true := by decide
theorem test_T504 : faults (withV [(0x1, 0x05)] { base with keys := 0x0020 }) 0xE19E (.unsupportedOperation 0x0200 0xE19E)
    = true := by decide
theorem test_T509 : after (withV [(0x1, 0x15)] (withKeys 0x0020)) 0xE19E (fun t => t.pc == 0x0204) = true := by decide
theorem test_T510 : after (withV [(0x1, 0x05)] (withKeys 0x0000)) 0xE1A1 (fun t => t.pc == 0x0204) = true := by decide
theorem test_T511 : after (withV [(0x1, 0x05)] (withKeys 0x0020)) 0xE1A1 (fun t => t.pc == 0x0202) = true := by decide
theorem test_T512 : after (withV [(0x2, 0x77)] (withKeys 0x0000)) 0xF20A
    (fun t => t.pc == 0x0200 && t.readV 0x2 == 0x77) = true := by decide
theorem test_T513 : after (withKeys 0x0090) 0xF20A (fun t => t.pc == 0x0202 && t.readV 0x2 == 0x04) = true := by decide
theorem test_T520 : { base with dt := 0x02, st := 0x01 }.tick = { base with dt := 0x01, st := 0x00 } := rfl

/-! ### Faults of decoding, and load (95_test_vectors 2.6) -/

theorem test_T600 : faults base 0x0000 (.illegalInstruction 0x0200 0x0000) = true := by decide
/-- T632, T633, T634. -/
theorem test_T633 : base.load [0x01] 0x1000 = .loadOverflow ∧ (base.load [0x01] 0x1000).code = 7 ∧
    base.load [] 0x1000 = .ok base ∧ base.load [0xAA] 0xFFF = .ok (base.writeByte 0xFFF 0xAA) := ⟨rfl, rfl, rfl, rfl⟩
/-- T635 and S10: load does not move PC; one step after it CLS has run. -/
theorem test_T635 : (match base.load [0x00, 0xE0] 0x200 with
    | .ok s => s.pc == 0x0200 && (match step s with | .next t => t.pc == 0x0202 | _ => false)
    | .loadOverflow => false) = true := by decide

/-! ### Witnesses: a state and operands that meet the hypotheses of each obligation that has some, one per clause, at the
boundary values of its range -/

/-- Full stack: 16 return addresses. -/
def fullStack : State := { base with sp := 16, stack := Vector.replicate 16 0x0222 }

/-- A state in the middle of a run: a CALL pending, bytes stored, a pixel lit. -/
def midRun : State :=
  withPixels [(0, 0)] ({ base with pc := 0x0300, sp := 1, i := 0x0400, stack := base.stack.set 0 0x0202 }.writeBytes 0x400
    [0x80, 0x01])

theorem witness_RetPopsOrUnderflows : base.sp = 0 ∧ midRun.sp.val = (0 : Fin 16).val + 1 ∧
    fullStack.sp.val = (15 : Fin 16).val + 1 := by decide
theorem witness_CallPushesOrOverflows : fullStack.sp = 16 ∧ base.sp.val = (0 : Fin 16).val ∧
    { fullStack with sp := 15 }.sp.val = (15 : Fin 16).val := by decide
theorem witness_JpV0AddsOffset : base.params.quirkJumpVx = false ∧ quirky.params.quirkJumpVx = true := by decide
theorem witness_CallThenRetRoundTrip : base.sp.val = (0 : Fin 16).val ∧ { fullStack with sp := 15 }.sp.val = (15 : Fin 16).val := by
  decide
theorem witness_ShrShiftsOneRight :
    0xAA#8 = (if (withV [(0x1, 0xAA)] quirky).params.quirkShiftVx then (withV [(0x1, 0xAA)] quirky).readV 0x1
      else (withV [(0x1, 0xAA)] quirky).readV 0x2) ∧
    0x05#8 = (if (withV [(0x2, 0x05)] base).params.quirkShiftVx then (withV [(0x2, 0x05)] base).readV 0x1
      else (withV [(0x2, 0x05)] base).readV 0x2) := by decide
theorem witness_ShlShiftsOneLeft :
    0x40#8 = (if (withV [(0x1, 0x40)] quirky).params.quirkShiftVx then (withV [(0x1, 0x40)] quirky).readV 0x1
      else (withV [(0x1, 0x40)] quirky).readV 0x2) ∧
    0xC0#8 = (if (withV [(0x2, 0xC0)] base).params.quirkShiftVx then (withV [(0x2, 0xC0)] base).readV 0x1
      else (withV [(0x2, 0xC0)] base).readV 0x2) := by decide
/-- The last I that Fx33 accepts, and a byte before and one after the stored three. -/
theorem witness_LdBStoresDigits : { base with i := 0x0FFD }.i.toNat + 2 ≤ 0xFFF ∧
    0xFFC < { base with i := 0x0FFD }.i.toNat ∧ { base with i := 0x0FFD }.i.toNat + 2 < 0x1000 := by decide
/-- The last I that Fx55 accepts with x = 0xF, its first and last register, and bytes before and after. -/
theorem witness_StoreRegistersThroughVx : { base with i := 0x0FF0 }.i.toNat + (0xF : Reg).toNat ≤ 0xFFF ∧
    (0x0 : Reg).toNat ≤ (0xF : Reg).toNat ∧ (0xF : Reg).toNat ≤ (0xF : Reg).toNat ∧
    0xFEF < { base with i := 0x0FF0 }.i.toNat ∧ { base with i := 0x0FF0 }.i.toNat + (0xF : Reg).toNat < 0x1000 := by decide
theorem witness_LoadRegistersThroughVx : { base with i := 0x0FF0 }.i.toNat + (0xF : Reg).toNat ≤ 0xFFF ∧
    { base with i := 0x0FFF }.i.toNat + (0x0 : Reg).toNat ≤ 0xFFF := by decide
/-- The first I out of range for each: two sprite rows, three digits, sixteen registers. -/
theorem witness_OutOfRangeAccessFaults :
    (0 < (0x2 : Nibble).toNat ∧ 0xFFF < { base with i := 0x0FFF }.i.toNat + (0x2 : Nibble).toNat - 1) ∧
    0xFFF < { base with i := 0x0FFE }.i.toNat + 2 ∧
    0xFFF < { base with i := 0x0FF1 }.i.toNat + (0xF : Reg).toNat ∧
    0xFFF < { base with i := 0x1000 }.i.toNat + (0x0 : Reg).toNat := by decide
theorem witness_StoreIsSeenByFetch : (∃ t, exec (.ldMemVx 0x1) midRun = .next t) ∧
    (0x1 : Reg).toNat = (0x0 : Reg).toNat + 1 ∧ (0x1 : Reg).toNat ≤ (0x1 : Reg).toNat := ⟨⟨_, rfl⟩, by decide, by decide⟩
/-- Both ways to be drawable, and for `midRun`, whose sprite byte 0x80 stands at I: a lit dot, an unlit one, a collision. -/
theorem witness_DrwXorsSpriteAndReportsCollision :
    ((0x0 : Nibble).toNat = 0 ∨ { base with i := 0xFFFF }.i.toNat + (0x0 : Nibble).toNat - 1 ≤ 0xFFF) ∧
    ((0x1 : Nibble).toNat = 0 ∨ { base with i := 0x0FFF }.i.toNat + (0x1 : Nibble).toNat - 1 ≤ 0xFFF) ∧
    midRun.spriteLights 0x0 0x1 0x1 0 0 ∧ ¬ midRun.spriteLights 0x0 0x1 0x1 1 0 ∧ midRun.display[0][0] = true := by
  refine ⟨.inl (by decide), .inr (by decide), ⟨0, 0, by decide, by decide, rfl, rfl, by decide⟩, ?_, by decide⟩
  rintro ⟨k, j, hk, -, hr, -⟩
  obtain rfl : k = 0 := Nat.lt_one_iff.mp hk
  exact absurd hr (by unfold lands; decide)
/-- The flag's other clause: with no pixel lit every dot meets a dark pixel. -/
theorem witness_DrwWithoutCollision : ∀ r c, { base with i := 0x0400 }.spriteLights 0x0 0x1 0x1 r c →
    { base with i := 0x0400 }.display[r.val][c.val] = false := by
  intro r c _
  simp [base, State.resetWith]
theorem witness_SpriteDotsNeverOverlap : (List.replicate 15 0xFF#8).length ≤ 15 := by decide
/-- `midRun` drawn with two rows: the byte 0x01 at I + 1 lights the dark pixel (1, 7). -/
theorem witness_DrawTwiceRestoresDisplay : (0x0 : Reg) ≠ 0xF ∧ (0x1 : Reg) ≠ 0xF ∧
    ((0x2 : Nibble).toNat = 0 ∨ midRun.i.toNat + (0x2 : Nibble).toNat - 1 ≤ 0xFFF) ∧
    ∃ r c, midRun.spriteLights 0x0 0x1 0x2 r c ∧ midRun.display[r.val][c.val] = false :=
  ⟨by decide, by decide, .inr (by decide), 1, 7, ⟨1, 7, by decide, by decide, rfl, rfl, by decide⟩, by decide⟩
theorem witness_KeySkipsWithKeypad : (withKeys 0x8000).params.keypadPresent = true ∧
    (withV [(0x1, 0x0F)] (withKeys 0x8000)).keys.getLsbD (((withV [(0x1, 0x0F)] (withKeys 0x8000)).readV 0x1).toNat % 16) = true ∧
    (withKeys 0x8000).keys.getLsbD (((withKeys 0x8000).readV 0x1).toNat % 16) = false := by decide
theorem witness_KeyWaitWithKeypad : (withKeys 0x8000).params.keypadPresent = true ∧ (withKeys 0x0000).keys = 0 ∧
    15 < 16 ∧ (withKeys 0x8000).keys.getLsbD 15 = true ∧ ∀ j, j < 15 → (withKeys 0x8000).keys.getLsbD j = false := by decide
theorem witness_KeyInstructionsFaultWithoutKeypad : base.params.keypadPresent = false := by decide
theorem witness_RegistersOutsideTableUnchanged : (∃ t, exec (.addReg 0x1 0x2) midRun = .next t) ∧
    (Instr.addReg 0x1 0x2).mayWriteV 0x2 = false := ⟨⟨_, rfl⟩, by decide⟩
/-- An instruction that stores, with an address on either side, and one that stores nothing. -/
theorem witness_MemoryOutsideStoreUnchanged : (∃ t, exec (.ldBVx 0x5) midRun = .next t) ∧
    0x3FF < midRun.i.toNat ∧ midRun.i.toNat + (Instr.ldBVx 0x5).storeWidth ≤ 0x403 ∧
    (∃ t, exec (.addImm 0x1 0x01) midRun = .next t) ∧ midRun.i.toNat + (Instr.addImm 0x1 0x01).storeWidth ≤ 0x400 :=
  ⟨⟨_, rfl⟩, by decide, by decide, ⟨_, rfl⟩, by decide⟩
/-- CLS meets four of the five clauses; LD I, nnn meets that of the display. -/
theorem witness_SpecialStateWrittenOnlyByItsOwn : (∃ t, exec .cls midRun = .next t) ∧ Instr.cls.mayWriteI = false ∧
    Instr.cls.mayUseStack = false ∧ (∀ x, Instr.cls ≠ .ldDtVx x) ∧ (∀ x, Instr.cls ≠ .ldStVx x) ∧
    (∃ t, exec (.ldI 0x123) midRun = .next t) ∧ (Instr.ldI 0x123).mayWriteDisplay = false :=
  ⟨⟨_, rfl⟩, by decide, by decide, by decide, by decide, ⟨_, rfl⟩, by decide⟩
theorem witness_PcFollowsTable : ∃ t, exec .ret midRun = .next t := ⟨_, rfl⟩
theorem witness_StepKeepsParameters : ∃ t, step (midRun.withFetchWord 16 0x00EE) = .next t := ⟨_, rfl⟩
theorem witness_InputsAreReadOnlyByTheirInstructions : (∀ x nn, Instr.cls ≠ .rnd x nn) ∧
    (∀ x, Instr.cls ≠ .skp x ∧ Instr.cls ≠ .sknp x ∧ Instr.cls ≠ .ldVxK x) ∧ base.params.keypadPresent = false :=
  ⟨nofun, fun _ => ⟨nofun, nofun, nofun⟩, by decide⟩
/-- At the last PC that can be fetched. -/
theorem witness_StepRunsDecodedInstruction :
    ({ base with pc := 0x0FFE }.withFetchWord 16 0x6005).pc.toNat ≤ 0xFFE ∧
    decode [({ base with pc := 0x0FFE }.withFetchWord 16 0x6005).readByte 0xFFE,
      ({ base with pc := 0x0FFE }.withFetchWord 16 0x6005).readByte 0xFFF] = .ok (.ldImm 0x0 0x05, []) ∧
    (Instr.ldImm 0x0 0x05).WellFormed = true := by decide
theorem witness_FetchPastMemoryFaults : 0xFFF < { base with pc := 0x0FFF }.pc.toNat + 1 := by decide
theorem witness_IllegalWordFaults : base.pc.toNat ≤ 0xFFE ∧
    legalWord (base.readByte base.pc.toNat ++ base.readByte (base.pc.toNat + 1)) = false := by decide
theorem witness_FaultsAreTheListedOnes : exec (.call 0x300) fullStack = .fault (.stackOverflow 0x0200 0x2300) ∧
    exec (.ldBVx 0x5) { base with i := 0x0FFE } = .fault (.memOutOfBounds 0x0200 0xF533 0x1000) := ⟨rfl, rfl⟩
theorem witness_EndedProgramStaysPut : (base.withFetchWord 16 0x1200).ended := ⟨by decide, by rfl⟩
theorem witness_DecoderAgreesWithOpcodeMap : legalWord 0x8124 = true ∧ legalWord 0x8128 = false ∧
    decodeWord 0x8124 = .ok (.addReg 0x1 0x2) := by decide
theorem witness_EncodeDecode : decodeWord 0xF365 = .ok (.ldVxMem 0x3) := by decide
/-- The last address of the font and those on either side of it. -/
theorem witness_ResetState : (0x4F < base.params.fontBase.val) ∧ base.params.fontBase.val + 80 ≤ 0xA0 := by decide
/-- An image that just fits, with its last byte and the byte before it, and one that does not. -/
theorem witness_LoadWritesImageOrOverflows : 0xFFE + [0xAA#8, 0xBB#8].length ≤ 4096 ∧ 1 < [0xAA#8, 0xBB#8].length ∧
    0xFFD < 0xFFE ∧ 0xFFE + [0xAA#8, 0xBB#8].length ≤ 0x1000 ∧ 4096 < 0xFFF + [0xAA#8, 0xBB#8].length := by decide
/-- Every action but a write of DT: the driver's own five, and a step of CLS. -/
theorem witness_DtNeverIncreasesExceptByFx15 :
    (∀ act ∈ [Action.tick, .reset, .load [0x12, 0x00] 0x200, .writeSt 0x06, .deliver 0x01 0x0001],
      (∃ t, act.perform { base with dt := 0x05 } = .next t) ∧ (∀ a, act ≠ .writeDt a) ∧ act ≠ .step) ∧
    (∃ t, Action.perform .step (base.withFetchWord 16 0x00E0) = .next t) ∧
    ∀ w x, (base.withFetchWord 16 0x00E0).fetch = .ok w → decodeWord w ≠ .ok (.ldDtVx x) := by
  refine ⟨?_, ⟨_, rfl⟩, fun w x hw => ?_⟩
  · simp only [List.forall_mem_cons]
    exact ⟨⟨⟨_, rfl⟩, nofun, nofun⟩, ⟨⟨_, rfl⟩, nofun, nofun⟩, ⟨⟨_, rfl⟩, nofun, nofun⟩, ⟨⟨_, rfl⟩, nofun, nofun⟩,
      ⟨⟨_, rfl⟩, nofun, nofun⟩, nofun⟩
  · obtain rfl : (0x00E0 : Word) = w := Except.ok.inj hw
    exact nofun
/-- A state of a run that is not the reset state: the invariant holds in it, and it has a next state. -/
theorem witness_StepKeepsInvariant : (midRun.withFetchWord 16 0x00EE).Inv ∧
    ∃ t, step (midRun.withFetchWord 16 0x00EE) = .next t :=
  ⟨⟨by decide, by unfold State.stackOk; decide, by unfold State.pcOk; decide⟩, ⟨_, rfl⟩⟩
theorem witness_EveryScheduleKeepsInvariant : ∃ t, runSchedule
    [.tick, .step, .deliver 0x01 0x0002, .writeDt 0x05, .writeSt 0x06, .load [0x12, 0x00] 0x200, .reset]
    (midRun.withFetchWord 16 0x00EE) = .next t := ⟨_, rfl⟩

end Sys2Proof.Tests
end

section
/-! PROOFS. The decoder on an encoded instruction: one lemma for the decode clause of every statement about an instruction. -/

namespace Sys2Proof

/-- The decoder's dispatch finds every instruction from its own word: by the class alone, or by the
secondary key of its class (30_encoding R84). -/
theorem decodeWord_encode (i : Instr) : decodeWord (encode i) = .ok i := by
  cases i with
  | cls | ret => rfl
  | jp | call | ldI | jpV0 | seImm | sneImm | ldImm | addImm | rnd | seReg | sneReg | drw =>
    simp [encode, decodeWord]
  | ldReg | orReg | andReg | xorReg | addReg | subReg | shr | subn | shl =>
    simp [encode, decodeWord, decodeClass8]
  | skp | sknp => simp [encode, decodeWord, decodeClassE]
  | ldVxDt | ldVxK | ldDtVx | ldStVx | addIVx | ldFVx | ldBVx | ldMemVx | ldVxMem =>
    simp [encode, decodeWord, decodeClassF]

end Sys2Proof
end

section
/-! PROOFS. The statements about control flow (40_control_flow): what a return, a call and a skip answer, each from the case
lemma of the operation it uses. -/

namespace Sys2Proof.Machine

open Sys2Proof

/-! ### Return and call, by the occupancy of the stack (10_state R26, R27) -/

theorem execRet_of_empty {s : State} (h : s.sp.val = 0) :
    execRet s = .fault (.stackUnderflow s.pc (encode .ret)) := by
  unfold execRet
  rcases s.pop_cases with ⟨k, hk, -⟩ | ⟨-, hp⟩
  · omega
  · rw [hp]; rfl

theorem execRet_of_top {s : State} (top : Fin 16) (h : s.sp.val = top.val + 1) :
    execRet s =
      .next { s with pc := s.stack[top.val], sp := top.castSucc, stack := s.stack.set top.val 0x0000 } := by
  unfold execRet
  rcases s.pop_cases with ⟨k, hk, hp⟩ | ⟨h0, -⟩
  · obtain rfl : top = k := Fin.ext (by omega)
    rw [hp]; rfl
  · omega

theorem execCall_of_full {nnn : Addr} {s : State} (h : s.sp.val = 16) :
    execCall nnn s = .fault (.stackOverflow s.pc (encode (.call nnn))) := by
  unfold execCall
  rcases s.push_cases s.advance.pc with ⟨k, hk, -⟩ | ⟨-, hp⟩
  · omega
  · rw [hp]; rfl

theorem execCall_of_free {nnn : Addr} {s : State} (free : Fin 16) (h : s.sp.val = free.val) :
    execCall nnn s =
      .next { s with pc := nnn.setWidth 16, sp := free.succ, stack := s.stack.set free.val (s.pc + 2) } := by
  unfold execCall
  rcases s.push_cases s.advance.pc with ⟨k, hk, hp⟩ | ⟨h16, -⟩
  · obtain rfl : free = k := Fin.ext (by omega)
    rw [hp]; rfl
  · omega

/-! ### Skips (40_control_flow section 3) -/

/-- A conditional skip differs from its start in PC alone. -/
theorem State.advanceSkipping_eq (s : State) (c : Bool) :
    s.advanceSkipping c = { s with pc := if c then s.pc + 4 else s.pc + 2 } := by
  rw [← s.advanceSkipping_pc]
  cases c <;> rfl

/-- The skips on equality, with an immediate or a register on the right. -/
theorem State.advanceSkipping_beq (s : State) (a b : Byte) :
    s.advanceSkipping (a == b) = { s with pc := if a = b then s.pc + 4 else s.pc + 2 } := by
  simp only [State.advanceSkipping_eq, beq_iff_eq]

/-- The skips on inequality, with an immediate or a register on the right. -/
theorem State.advanceSkipping_bne (s : State) (a b : Byte) :
    s.advanceSkipping (a != b) = { s with pc := if a ≠ b then s.pc + 4 else s.pc + 2 } := by
  simp only [State.advanceSkipping_eq, bne_iff_ne]

/-! ### The statements -/

/-- Settles O1: the two cases of the pop. -/
theorem retPopsOrUnderflows : Obligations.RetPopsOrUnderflows := by
  unfold Obligations.RetPopsOrUnderflows
  refine ⟨decodeWord_encode .ret, fun s => ⟨fun h => ?_, fun top h => execRet_of_top top h⟩⟩
  exact execRet_of_empty (congrArg Fin.val h)

/-- Settles O2: execution writes PC and nothing else. -/
theorem jpSetsPc : Obligations.JpSetsPc := by
  unfold Obligations.JpSetsPc
  exact fun nnn => ⟨decodeWord_encode (.jp nnn), fun _ => rfl⟩

/-- Settles O3: the two cases of the push. -/
theorem callPushesOrOverflows : Obligations.CallPushesOrOverflows := by
  unfold Obligations.CallPushesOrOverflows
  refine fun nnn => ⟨decodeWord_encode (.call nnn), fun s => ⟨fun h => ?_, fun free h => execCall_of_free free h⟩⟩
  exact execCall_of_full (congrArg Fin.val h)

/-- Settles O4: both forms are a conditional skip on Vx and nn. -/
theorem skipImmediate : Obligations.SkipImmediate := by
  unfold Obligations.SkipImmediate
  exact fun x nn => ⟨decodeWord_encode (.seImm x nn), decodeWord_encode (.sneImm x nn), fun s =>
    ⟨congrArg _ (s.advanceSkipping_beq (s.readV x) nn), congrArg _ (s.advanceSkipping_bne (s.readV x) nn)⟩⟩

/-- Settles O5: both forms are a conditional skip on Vx and Vy. -/
theorem skipRegister : Obligations.SkipRegister := by
  unfold Obligations.SkipRegister
  exact fun x y => ⟨decodeWord_encode (.seReg x y), decodeWord_encode (.sneReg x y), fun s =>
    ⟨congrArg _ (s.advanceSkipping_beq (s.readV x) (s.readV y)),
      congrArg _ (s.advanceSkipping_bne (s.readV x) (s.readV y))⟩⟩

end Sys2Proof.Machine
end

section
/-! PROOFS. The statements about arithmetic and logic (41_arithmetic_logic): the flags and the results of the model, written
as the spec's formulas on numbers. -/

namespace Sys2Proof.Machine

open Sys2Proof

/-! ### Flags as 1 or 0 (10_state R22, 41_arithmetic_logic R133) -/

theorem carryFlag_eq (a b : Byte) : carryFlag a b = if 255 < a.toNat + b.toNat then 1 else 0 :=
  flagByte_decide _

theorem noBorrowFlag_eq (a b : Byte) : noBorrowFlag a b = if b.toNat ≤ a.toNat then 1 else 0 :=
  flagByte_decide _

/-! ### The difference modulo 256 -/

/-- The 256 keeps the truncated subtraction of numbers away from zero, and is 0 modulo 256. -/
theorem ofNat_toNat_sub (a b : Byte) : BitVec.ofNat 8 (a.toNat + 256 - b.toNat) = a - b := by
  bv_omega

/-! ### The statements -/

/-- Settles O8: the immediate is written as it is. -/
theorem ldImmWritesVx : Obligations.LdImmWritesVx := by
  unfold Obligations.LdImmWritesVx
  exact fun x nn => ⟨decodeWord_encode (.ldImm x nn), fun _ => rfl⟩

/-- Settles O9: the sum of bytes is the sum modulo 256. -/
theorem addImmWrapsWithoutFlag : Obligations.AddImmWrapsWithoutFlag := by
  unfold Obligations.AddImmWrapsWithoutFlag
  refine fun x nn => ⟨decodeWord_encode (.addImm x nn), fun s => ?_⟩
  rw [← BitVec.add_def]
  rfl

/-- Settles O10: the source byte is written as it is. -/
theorem ldRegCopies : Obligations.LdRegCopies := by
  unfold Obligations.LdRegCopies
  exact fun x y => ⟨decodeWord_encode (.ldReg x y), fun _ => rfl⟩

/-- Settles O11: the three result bytes are the bitwise operations on Vx and Vy. -/
theorem logicIsBitwiseWithoutFlag : Obligations.LogicIsBitwiseWithoutFlag := by
  unfold Obligations.LogicIsBitwiseWithoutFlag
  refine fun x y => ⟨decodeWord_encode (.orReg x y), decodeWord_encode (.andReg x y), decodeWord_encode (.xorReg x y),
    fun s => ⟨s.readV x ||| s.readV y, s.readV x &&& s.readV y, s.readV x ^^^ s.readV y, rfl, rfl, rfl, fun k => ?_⟩⟩
  exact ⟨BitVec.getLsbD_or, BitVec.getLsbD_and, BitVec.getLsbD_xor⟩

/-- Settles O12: the flag is the carry out of the untruncated sum, the result its low byte. -/
theorem addRegCarries : Obligations.AddRegCarries := by
  unfold Obligations.AddRegCarries
  refine fun x y => ⟨decodeWord_encode (.addReg x y), fun s => ?_⟩
  rw [← carryFlag_eq, ← BitVec.add_def]
  rfl

/-- Settles O13: the flag is set when Vx - Vy needs no borrow, the result is the difference of the bytes. -/
theorem subRegBorrows : Obligations.SubRegBorrows := by
  unfold Obligations.SubRegBorrows
  refine fun x y => ⟨decodeWord_encode (.subReg x y), fun s => ?_⟩
  rw [← noBorrowFlag_eq, ofNat_toNat_sub]
  rfl

/-- Settles O14: as O13, with the operands exchanged. -/
theorem subnBorrows : Obligations.SubnBorrows := by
  unfold Obligations.SubnBorrows
  refine fun x y => ⟨decodeWord_encode (.subn x y), fun s => ?_⟩
  rw [← noBorrowFlag_eq, ofNat_toNat_sub]
  rfl

/-- Settles O17: the meaning reads the random byte from the state, whatever its value. -/
theorem rndMasksInput : Obligations.RndMasksInput := by
  unfold Obligations.RndMasksInput
  exact fun x nn => ⟨decodeWord_encode (.rnd x nn), fun _ _ => rfl⟩

end Sys2Proof.Machine
end

section
/-! PROOFS. The statements about the index register and memory (42_memory_index). -/

namespace Sys2Proof.Machine

open Sys2Proof

/-- Settles O18: the address is written as it is, extended by zeros. -/
theorem ldIWritesI : Obligations.LdIWritesI := by
  unfold Obligations.LdIWritesI
  exact fun nnn => ⟨decodeWord_encode (.ldI nnn), fun _ => rfl⟩

end Sys2Proof.Machine
end

section
/-! PROOFS. The statements about graphics (43_graphics). -/

namespace Sys2Proof.Machine

open Sys2Proof

/-- Settles O26: the display CLS writes is 32 rows of 64 zeros, so each read of it goes through two constant vectors. -/
theorem clsClearsDisplay : Obligations.ClsClearsDisplay := by
  unfold Obligations.ClsClearsDisplay
  refine ⟨decodeWord_encode .cls, fun s => ⟨s.advance.writeDisplay (.replicate 32 (.replicate 64 false)), rfl, rfl,
    fun r c => ?_⟩⟩
  rw [State.writeDisplay_display, Vector.getElem_replicate, Vector.getElem_replicate]

end Sys2Proof.Machine
end

section
/-! PROOFS. The statements about timers and the keypad (44_timers_keypad). -/

namespace Sys2Proof.Machine

open Sys2Proof

/-- Settles O31: both forms write the byte of Vx to the timer as it is, on the advanced state. -/
theorem ldTimersFromVx : Obligations.LdTimersFromVx := by
  unfold Obligations.LdTimersFromVx
  exact fun x => ⟨decodeWord_encode (.ldDtVx x), decodeWord_encode (.ldStVx x), fun _ => ⟨rfl, rfl⟩⟩

end Sys2Proof.Machine
end

section
/-! PROOFS. The statements about exceptions (60_exceptions). -/

namespace Sys2Proof.Machine

open Sys2Proof

/-! ### The fetch's fault (60_exceptions R182), the first in a step's order (40_control_flow R100) -/

theorem State.fetch_of_outside {s : State} (h : 0xFFF < s.pc.toNat + 1) :
    s.fetch = .error (raiseFetchOutOfBounds s) :=
  if_neg (Nat.not_le.mpr h)

theorem step_of_fetch_error {s : State} {f : Fault} (h : s.fetch = .error f) : step s = .fault f := by
  unfold step
  rw [h]

/-! ### The statements -/

/-- Settles O43: the fetch answers its fault before anything is decoded, and the step reports that fault. -/
theorem fetchPastMemoryFaults : Obligations.FetchPastMemoryFaults := by
  unfold Obligations.FetchPastMemoryFaults
  exact fun _ h => step_of_fetch_error (State.fetch_of_outside h)

end Sys2Proof.Machine
end

section
/-! PROOFS. The statements about the encoding (30_encoding): the decoder and the encoder are inverse to each other, and the
decoder agrees with the opcode map. -/

namespace Sys2Proof

/-! ### What a class reads encodes to the word it read from (30_encoding R84) -/

theorem encode_of_decodeClass0 {w : Word} {i : Instr} (h : decodeClass0 w = .ok i) : encode i = w := by
  unfold decodeClass0 at h
  split at h
  · next hw => cases h; exact hw.symm
  · split at h
    · next hw => cases h; exact hw.symm
    · cases h

theorem encode_of_decodeClass8 {x y : Reg} {n : Nibble} {i : Instr} (h : decodeClass8 x y n = .ok i) :
    encode i = formatXYN 0x8 x y n := by
  unfold decodeClass8 at h
  split at h <;> cases h <;> rfl

theorem encode_of_decodeClassE {x : Reg} {nn : Byte} {i : Instr} (h : decodeClassE x nn = .ok i) :
    encode i = formatXI 0xE x nn := by
  unfold decodeClassE at h
  split at h <;> cases h <;> rfl

theorem encode_of_decodeClassF {x : Reg} {nn : Byte} {i : Instr} (h : decodeClassF x nn = .ok i) :
    encode i = formatXI 0xF x nn := by
  unfold decodeClassF at h
  split at h <;> cases h <;> rfl

/-! ### A word whose class is known is its other fields under that class -/

theorem formatA_of_opField {w : Word} {op : BitVec 4} (h : opField w = op) : formatA op (nnnField w) = w :=
  h ▸ formatA_fields w

theorem formatXI_of_opField {w : Word} {op : BitVec 4} (h : opField w = op) :
    formatXI op (xField w) (nnField w) = w :=
  h ▸ formatXI_fields w

theorem formatXYN_of_opField {w : Word} {op : BitVec 4} (h : opField w = op) :
    formatXYN op (xField w) (yField w) (nField w) = w :=
  h ▸ formatXYN_fields w

/-- 0xF is the class that is left when every other one is excluded. -/
theorem opField_eq_classF : ∀ op : BitVec 4,
    op ∉ [0x0, 0x1, 0x2, 0x3, 0x4, 0x5, 0x6, 0x7, 0x8, 0x9, 0xA, 0xB, 0xC, 0xD, 0xE] → op = 0xF := by
  decide

theorem encode_of_decodeWord {w : Word} {i : Instr} (h : decodeWord w = .ok i) : encode i = w := by
  unfold decodeWord at h
  split at h
  case h_1 => exact encode_of_decodeClass0 h
  case h_6 | h_10 =>
    split at h
    · next hop hn => cases h; exact .trans (by rw [hn]; rfl) (formatXYN_of_opField hop)
    · cases h
  case h_9 hop => exact (encode_of_decodeClass8 h).trans (formatXYN_of_opField hop)
  case h_14 hop => cases h; exact formatXYN_of_opField hop
  case h_15 hop => exact (encode_of_decodeClassE h).trans (formatXI_of_opField hop)
  case h_16 =>
    refine (encode_of_decodeClassF h).trans (formatXI_of_opField ?_)
    apply opField_eq_classF
    simp only [List.mem_cons, List.not_mem_nil, or_false, not_or]
    and_intros <;> assumption
  case h_2 hop | h_3 hop | h_11 hop | h_12 hop => cases h; exact formatA_of_opField hop
  case h_4 hop | h_5 hop | h_7 hop | h_8 hop | h_13 hop => cases h; exact formatXI_of_opField hop

/-- Settles O50: the two bytes of an instruction make its word again, and the decoder finds the instruction from its word. -/
theorem decodeEncode : Obligations.DecodeEncode := by
  unfold Obligations.DecodeEncode
  intro i rest
  simp [encodeBytes, decode, decodeWord_encode, Except.map]

/-- Settles O51, class by class: each class takes its operands from the fields that its format puts them in. -/
theorem encodeDecode : Obligations.EncodeDecode := by
  unfold Obligations.EncodeDecode
  exact fun _ _ h => encode_of_decodeWord h

/-! ### The rows of the opcode map as conditions on the fields (30_encoding R85) -/

theorem selects_class {w : Word} {op : BitVec 4} (h : OpcodeRow.selects ⟨0xF000, op ++ 0x000#12⟩ w = true) :
    opField w = op := by
  have e : formatA (opField w) 0x000 = formatA op 0x000 :=
    (Laws.row_formatA (opField w) (nnnField w)).symm.trans
      ((congrArg (· &&& 0xF000) (formatA_fields w)).trans (eq_of_beq h))
  simpa using congrArg opField e

theorem selects_nibble {w : Word} {op n : BitVec 4}
    (h : OpcodeRow.selects ⟨0xF00F, op ++ (0x0#4 ++ (0x0#4 ++ n))⟩ w = true) : opField w = op ∧ nField w = n := by
  have e : formatXYN (opField w) 0x0 0x0 (nField w) = formatXYN op 0x0 0x0 n :=
    (Laws.row_formatXY (opField w) (xField w) (yField w) (nField w)).symm.trans
      ((congrArg (· &&& 0xF00F) (formatXYN_fields w)).trans (eq_of_beq h))
  exact ⟨by simpa using congrArg opField e, by simpa using congrArg nField e⟩

theorem selects_byte {w : Word} {op : BitVec 4} {nn : Byte}
    (h : OpcodeRow.selects ⟨0xF0FF, op ++ (0x0#4 ++ nn)⟩ w = true) : opField w = op ∧ nnField w = nn := by
  have e : formatXI (opField w) 0x0 (nnField w) = formatXI op 0x0 nn :=
    (Laws.row_formatX (opField w) (xField w) (nnField w)).symm.trans
      ((congrArg (· &&& 0xF0FF) (formatXI_fields w)).trans (eq_of_beq h))
  exact ⟨by simpa using congrArg opField e, by simpa using congrArg nnField e⟩

/-! ### The shapes of the map's rows: in each of its four parts the mask is fixed (30_encoding R83, R85) -/

theorem eq_of_mem_opcodeRowsClass0 : ∀ r ∈ opcodeRowsClass0, r = ⟨0xFFFF, encode .cls⟩ ∨ r = ⟨0xFFFF, encode .ret⟩ := by
  decide

theorem eq_of_mem_opcodeRowsByClass : ∀ r ∈ opcodeRowsByClass,
    ∃ op ∈ [0x1#4, 0x2, 0x3, 0x4, 0x6, 0x7, 0xA, 0xB, 0xC, 0xD], r = ⟨0xF000, op ++ 0x000#12⟩ := by
  decide

theorem eq_of_mem_opcodeRowsByNibble : ∀ r ∈ opcodeRowsByNibble,
    ∃ k ∈ [(0x5#4, 0x0#4), (0x8, 0x0), (0x8, 0x1), (0x8, 0x2), (0x8, 0x3), (0x8, 0x4), (0x8, 0x5), (0x8, 0x6), (0x8, 0x7),
      (0x8, 0xE), (0x9, 0x0)], r = ⟨0xF00F, k.1 ++ (0x0#4 ++ (0x0#4 ++ k.2))⟩ := by
  decide

theorem eq_of_mem_opcodeRowsByByte : ∀ r ∈ opcodeRowsByByte,
    ∃ k ∈ [(0xE#4, 0x9E#8), (0xE, 0xA1), (0xF, 0x07), (0xF, 0x0A), (0xF, 0x15), (0xF, 0x18), (0xF, 0x1E), (0xF, 0x29),
      (0xF, 0x33), (0xF, 0x55), (0xF, 0x65)], r = ⟨0xF0FF, k.1 ++ (0x0#4 ++ k.2)⟩ := by
  decide

/-! ### A word that selects a row decodes (30_encoding R84) -/

theorem decodeWord_of_selects_class0 {r : OpcodeRow} {w : Word} (hr : r ∈ opcodeRowsClass0) (h : r.selects w = true) :
    ∃ i, decodeWord w = .ok i := by
  have hw : w &&& 0xFFFF = w := BitVec.and_allOnes
  rcases eq_of_mem_opcodeRowsClass0 r hr with rfl | rfl
  · exact ⟨.cls, (hw.symm.trans (eq_of_beq h)) ▸ decodeWord_encode .cls⟩
  · exact ⟨.ret, (hw.symm.trans (eq_of_beq h)) ▸ decodeWord_encode .ret⟩

theorem decodeWord_of_selects_byClass {r : OpcodeRow} {w : Word} (hr : r ∈ opcodeRowsByClass)
    (h : r.selects w = true) : ∃ i, decodeWord w = .ok i := by
  obtain ⟨op, hop, rfl⟩ := eq_of_mem_opcodeRowsByClass r hr
  have hw := selects_class h
  fin_cases hop <;> simp [decodeWord, hw]

theorem decodeWord_of_selects_byNibble {r : OpcodeRow} {w : Word} (hr : r ∈ opcodeRowsByNibble)
    (h : r.selects w = true) : ∃ i, decodeWord w = .ok i := by
  obtain ⟨k, hk, rfl⟩ := eq_of_mem_opcodeRowsByNibble r hr
  obtain ⟨hop, hn⟩ := selects_nibble h
  fin_cases hk <;> simp [decodeWord, decodeClass8, hop, hn]

theorem decodeWord_of_selects_byByte {r : OpcodeRow} {w : Word} (hr : r ∈ opcodeRowsByByte)
    (h : r.selects w = true) : ∃ i, decodeWord w = .ok i := by
  obtain ⟨k, hk, rfl⟩ := eq_of_mem_opcodeRowsByByte r hr
  obtain ⟨hop, hnn⟩ := selects_byte h
  fin_cases hk <;> simp [decodeWord, decodeClassE, decodeClassF, hop, hnn]

theorem decodeWord_of_legalWord {w : Word} (h : legalWord w = true) : ∃ i, decodeWord w = .ok i := by
  obtain ⟨r, hr, hsel⟩ := List.any_eq_true.mp h
  simp only [opcodeMap, List.mem_append] at hr
  rcases hr with ((hr | hr) | hr) | hr
  · exact decodeWord_of_selects_class0 hr hsel
  · exact decodeWord_of_selects_byClass hr hsel
  · exact decodeWord_of_selects_byNibble hr hsel
  · exact decodeWord_of_selects_byByte hr hsel

/-! ### An instruction's word selects its own row and no other -/

/-- The family RowOf of the model's laws, for every instruction at once. -/
theorem rowOf : ∀ i : Instr, Laws.RowOf.Statement i
  | .cls => Laws.RowOf.cls
  | .ret => Laws.RowOf.ret
  | .jp _ => Laws.RowOf.jp _
  | .call _ => Laws.RowOf.call _
  | .seImm .. => Laws.RowOf.seImm ..
  | .sneImm .. => Laws.RowOf.sneImm ..
  | .seReg .. => Laws.RowOf.seReg ..
  | .ldImm .. => Laws.RowOf.ldImm ..
  | .addImm .. => Laws.RowOf.addImm ..
  | .ldReg .. => Laws.RowOf.ldReg ..
  | .orReg .. => Laws.RowOf.orReg ..
  | .andReg .. => Laws.RowOf.andReg ..
  | .xorReg .. => Laws.RowOf.xorReg ..
  | .addReg .. => Laws.RowOf.addReg ..
  | .subReg .. => Laws.RowOf.subReg ..
  | .shr .. => Laws.RowOf.shr ..
  | .subn .. => Laws.RowOf.subn ..
  | .shl .. => Laws.RowOf.shl ..
  | .sneReg .. => Laws.RowOf.sneReg ..
  | .ldI _ => Laws.RowOf.ldI _
  | .jpV0 _ => Laws.RowOf.jpV0 _
  | .rnd .. => Laws.RowOf.rnd ..
  | .drw .. => Laws.RowOf.drw ..
  | .skp _ => Laws.RowOf.skp _
  | .sknp _ => Laws.RowOf.sknp _
  | .ldVxDt _ => Laws.RowOf.ldVxDt _
  | .ldVxK _ => Laws.RowOf.ldVxK _
  | .ldDtVx _ => Laws.RowOf.ldDtVx _
  | .ldStVx _ => Laws.RowOf.ldStVx _
  | .addIVx _ => Laws.RowOf.addIVx _
  | .ldFVx _ => Laws.RowOf.ldFVx _
  | .ldBVx _ => Laws.RowOf.ldBVx _
  | .ldMemVx _ => Laws.RowOf.ldMemVx _
  | .ldVxMem _ => Laws.RowOf.ldVxMem _

theorem row_mem_opcodeMap (i : Instr) : i.row ∈ opcodeMap := List.contains_iff_mem.mp (rowOf i).2

theorem row_selects_of_decodeWord {w : Word} {i : Instr} (h : decodeWord w = .ok i) : i.row.selects w = true := by
  rw [← encode_of_decodeWord h]
  exact beq_iff_eq.mpr (rowOf i).1

theorem legalWord_of_decodeWord {w : Word} {i : Instr} (h : decodeWord w = .ok i) : legalWord w = true :=
  List.any_eq_true.mpr ⟨i.row, row_mem_opcodeMap i, row_selects_of_decodeWord h⟩

theorem decodeWord_eq_error_of_illegal {w : Word} (h : legalWord w = false) : ∃ e, decodeWord w = .error e := by
  cases hd : decodeWord w with
  | error e => exact ⟨e, rfl⟩
  | ok i => exact absurd (legalWord_of_decodeWord hd) (by rw [h]; decide)

/-- A word that selects two rows agrees with both on the bits that both fix. -/
theorem not_apartFrom_of_selects {r t : OpcodeRow} {w : Word} (hr : r.selects w = true) (ht : t.selects w = true) :
    r.apartFrom t = false := by
  rw [OpcodeRow.selects, beq_iff_eq] at hr ht
  rw [OpcodeRow.apartFrom, bne_eq_false_iff_eq, ← hr, ← ht, BitVec.and_assoc, BitVec.and_assoc,
    BitVec.and_comm r.mask]

/-- No two rows of the map overlap (30_encoding R84). -/
theorem opcodeMap_apart : ∀ r ∈ opcodeMap, ∀ t ∈ opcodeMap, r = t ∨ r.apartFrom t = true := by decide

theorem row_unique {r t : OpcodeRow} {w : Word} (hrm : r ∈ opcodeMap) (htm : t ∈ opcodeMap) (hr : r.selects w = true)
    (ht : t.selects w = true) : r = t := by
  refine (opcodeMap_apart r hrm t htm).resolve_right ?_
  rw [not_apartFrom_of_selects hr ht]
  decide

/-- Settles O49: a legal word decodes by the part of the map its row stands in, the word of an instruction selects the
instruction's row, and no two rows overlap. -/
theorem decoderAgreesWithOpcodeMap : Obligations.DecoderAgreesWithOpcodeMap := by
  unfold Obligations.DecoderAgreesWithOpcodeMap
  exact fun w => ⟨decodeWord_of_legalWord, decodeWord_eq_error_of_illegal, fun i hi =>
    ⟨row_selects_of_decodeWord hi, fun r hr hsel => row_unique hr (row_mem_opcodeMap i) hsel (row_selects_of_decodeWord hi)⟩⟩

/-! ### The spec's worked words (30_encoding R91) -/

/-- The table's bits of an instruction are read back as that instruction. -/
theorem decodeTableWord_encode (i : Instr) : decodeTableWord 16 (encode i).toNat = some i := by
  have hw : tableWord 16 (encode i).toNat = encode i := by
    rw [tableWord, Nat.mod_eq_of_lt (encode i).isLt, BitVec.ofNat_toNat, BitVec.setWidth_eq]
  simp [decodeTableWord, decode, hw, decodeWord_encode, Except.map]

/-- Settles O48: six words are the encodings of the instructions they stand for; the two illegal ones fall in the rejecting
arms of classes 5 and 0. -/
theorem specWordsDecode : Obligations.SpecWordsDecode := by
  unfold Obligations.SpecWordsDecode
  exact ⟨decodeTableWord_encode .cls, decodeTableWord_encode (.jp 0x200), decodeTableWord_encode (.ldImm 0xA 0x3C),
    decodeTableWord_encode (.addReg 0x1 0x2), decodeTableWord_encode (.drw 0x0 0x1 0x5), decodeTableWord_encode (.ldMemVx 0x3),
    rfl, rfl⟩

end Sys2Proof
end

section
/-! PROOFS. What an instruction leaves unchanged: one relation for all the tables of accesses (10_state R21, R23 to R29,
20_memory R55), one rule per operation on the state, and one case split over the instructions. -/

namespace Sys2Proof.Machine

open Sys2Proof

/-! ### A byte after a run of stores (20_memory R53, R55) -/

/-- A run of stores puts the k-th byte at the k-th address of its range (20_memory R53). -/
theorem State.readByte_writeBytes_at (s : State) (a : Nat) {xs : List Byte} {k : Nat} (hk : k < xs.length) :
    (s.writeBytes a xs).readByte (a + k) = xs[k] := by
  rw [State.readByte_writeBytes, if_pos (Nat.le_add_right ..), Nat.add_sub_cancel_left, List.getD_eq_getElem _ _ hk]

/-- A run of stores leaves every byte outside its range (20_memory R55). -/
theorem State.readByte_writeBytes_outside (s : State) {a : Nat} {xs : List Byte} (b : Nat)
    (h : b < a ∨ a + xs.length ≤ b) : (s.writeBytes a xs).readByte b = s.readByte b := by
  rw [State.readByte_writeBytes]
  split
  · rw [List.getD_eq_getElem?_getD, List.getElem?_eq_none (by omega), Option.getD_none]
  · rfl

/-! ### The relation -/

/-- From `s` to `t` only what `i`'s tables list has changed, where `a` is the value of I that `i` started with: an
instruction that writes I writes it after its stores. Memory keeps its canonical form besides. -/
structure Keeps (i : Instr) (a : Nat) (s t : State) : Prop where
  registers : ∀ k, i.mayWriteV k = false → t.readV k = s.readV k
  bytes : ∀ b, (b < a ∨ a + i.storeWidth ≤ b) → t.readByte b = s.readByte b
  index : i.mayWriteI = false → t.i = s.i
  calls : i.mayUseStack = false → t.sp = s.sp ∧ t.stack = s.stack
  delay : (∀ x, i ≠ .ldDtVx x) → t.dt = s.dt
  sound : (∀ x, i ≠ .ldStVx x) → t.st = s.st
  display : i.mayWriteDisplay = false → t.display = s.display
  params : t.params = s.params
  canonical : Memory.wf s.params s.mem → Memory.wf t.params t.mem

namespace Keeps

variable {i : Instr} {a : Nat} {s t u : State}

theorem refl (s : State) : Keeps i a s s :=
  ⟨fun _ _ => rfl, fun _ _ => rfl, fun _ => rfl, fun _ => ⟨rfl, rfl⟩, fun _ => rfl, fun _ => rfl, fun _ => rfl, rfl, id⟩

theorem trans (h : Keeps i a s t) (g : Keeps i a t u) : Keeps i a s u where
  registers k hk := (g.registers k hk).trans (h.registers k hk)
  bytes b hb := (g.bytes b hb).trans (h.bytes b hb)
  index hi := (g.index hi).trans (h.index hi)
  calls hc := ⟨(g.calls hc).1.trans (h.calls hc).1, (g.calls hc).2.trans (h.calls hc).2⟩
  delay hd := (g.delay hd).trans (h.delay hd)
  sound hs := (g.sound hs).trans (h.sound hs)
  display hd := (g.display hd).trans (h.display hd)
  params := g.params.trans h.params
  canonical hm := g.canonical (h.canonical hm)

/-! ### One rule per operation: it keeps to the tables of every instruction that is allowed what it writes -/

theorem writePc (s : State) (p : Word) : Keeps i a s (s.writePc p) := { refl s with }

theorem advance (s : State) : Keeps i a s s.advance := writePc s _

theorem advanceSkipping (s : State) (c : Bool) : Keeps i a s (s.advanceSkipping c) :=
  s.advanceSkipping_eq c ▸ writePc s _

theorem writeV {x : Reg} (s : State) (b : Byte) (h : i.mayWriteV x = true) : Keeps i a s (s.writeV x b) :=
  { refl s with
    registers := fun k hk => by
      rw [State.readV_writeV, if_neg]
      rintro rfl
      exact absurd (h.symm.trans hk) (by decide) }

theorem commitFlagThenResult {x : Reg} (s : State) (f r : Byte) (hf : i.mayWriteV flagReg = true)
    (hx : i.mayWriteV x = true) : Keeps i a s (s.commitFlagThenResult x f r) :=
  (writeV s f hf).trans (writeV _ r hx)

theorem writeI (s : State) (b : Word) (h : i.mayWriteI = true) : Keeps i a s (s.writeI b) :=
  { refl s with index := fun hi => absurd (h.symm.trans hi) (by decide) }

theorem stepI (s : State) (x : Reg) (h : i.mayWriteI = true) : Keeps i a s (s.stepI x) := by
  unfold State.stepI
  split
  · exact refl s
  · exact writeI s _ h

theorem writeDt {x : Reg} (s : State) (b : Byte) : Keeps (.ldDtVx x) a s (s.writeDt b) :=
  { refl s with delay := fun h => absurd rfl (h x) }

theorem writeSt {x : Reg} (s : State) (b : Byte) : Keeps (.ldStVx x) a s (s.writeSt b) :=
  { refl s with sound := fun h => absurd rfl (h x) }

theorem writeDisplay (s : State) (d : Display) (h : i.mayWriteDisplay = true) : Keeps i a s (s.writeDisplay d) :=
  { refl s with display := fun hd => absurd (h.symm.trans hd) (by decide) }

theorem writeStack (s : State) (p : Word) (n : Fin 17) (xs : Vector Word 16) (h : i.mayUseStack = true) :
    Keeps i a s { s with pc := p, sp := n, stack := xs } :=
  { refl s with calls := fun hc => absurd (h.symm.trans hc) (by decide) }

theorem loadRegisters (s : State) (xs : List Byte) (h : ∀ k, i.mayWriteV k = false → xs.length ≤ k.toNat) :
    Keeps i a s (s.loadRegisters xs) where
  registers k hk := by
    rw [State.readV_loadRegisters, List.getD_eq_getElem?_getD, List.getElem?_eq_none (h k hk),
      Option.getD_none]
  bytes _ _ := by simp only [State.readByte, State.loadRegisters_params, State.loadRegisters_mem]
  index _ := s.loadRegisters_i xs
  calls _ := ⟨s.loadRegisters_sp xs, s.loadRegisters_stack xs⟩
  delay _ := s.loadRegisters_dt xs
  sound _ := s.loadRegisters_st xs
  display _ := s.loadRegisters_display xs
  params := s.loadRegisters_params xs
  canonical hm := by rwa [State.loadRegisters_params, State.loadRegisters_mem]

theorem writeBytes (s : State) (xs : List Byte) (ha : a + xs.length ≤ 4096) (hw : i.storeWidth = xs.length) :
    Keeps i a s (s.writeBytes a xs) where
  registers k _ := by simp only [State.readV, State.writeBytes_v]
  bytes b hb := s.readByte_writeBytes_outside b (hw ▸ hb)
  index _ := s.writeBytes_i a xs
  calls _ := ⟨s.writeBytes_sp a xs, s.writeBytes_stack a xs⟩
  delay _ := s.writeBytes_dt a xs
  sound _ := s.writeBytes_st a xs
  display _ := s.writeBytes_display a xs
  params := s.writeBytes_params a xs
  canonical := s.writeBytes_wf a xs ha

end Keeps

/-! ### Every instruction keeps to its tables -/

theorem exec_keeps {i : Instr} {s t : State} (h : exec i s = .next t) : Keeps i s.i.toNat s t := by
  cases i with
  | jp | jpV0 => cases h; exact .writePc ..
  | seImm | sneImm | seReg | sneReg => cases h; exact .advanceSkipping ..
  | ldImm | addImm | ldReg | orReg | andReg | xorReg | rnd | ldVxDt =>
    cases h; exact (Keeps.advance s).trans (.writeV _ _ (by simp [Instr.mayWriteV]))
  | addReg | subReg | shr | subn | shl =>
    cases h
    exact (Keeps.advance s).trans
      (.commitFlagThenResult _ _ _ (by simp [Instr.mayWriteV]) (by simp [Instr.mayWriteV]))
  | ldI | ldFVx => cases h; exact (Keeps.advance s).trans (.writeI _ _ rfl)
  | addIVx => cases h; exact ((Keeps.advance s).trans (.writeV _ _ rfl)).trans (.writeI _ _ rfl)
  | ldDtVx => cases h; exact (Keeps.advance s).trans (.writeDt ..)
  | ldStVx => cases h; exact (Keeps.advance s).trans (.writeSt ..)
  | cls => cases h; exact (Keeps.advance s).trans (.writeDisplay _ _ rfl)
  | drw =>
    obtain ⟨flag, d, rfl⟩ := execDrw_next h
    exact ((Keeps.advance s).trans (.writeV _ _ rfl)).trans (.writeDisplay _ _ rfl)
  | ret => obtain ⟨top, -, rfl⟩ := execRet_next h; exact .writeStack _ _ _ _ rfl
  | call => obtain ⟨free, -, rfl⟩ := execCall_next h; exact .writeStack _ _ _ _ rfl
  | skp => obtain ⟨-, rfl⟩ := execSkp_next h; exact .advanceSkipping ..
  | sknp => obtain ⟨-, rfl⟩ := execSknp_next h; exact .advanceSkipping ..
  | ldVxK =>
    obtain ⟨-, ⟨-, rfl⟩ | ⟨k, -, rfl⟩⟩ := execLdVxK_next h
    · exact .refl _
    · exact (Keeps.advance s).trans (.writeV _ _ (by simp [Instr.mayWriteV]))
  | ldBVx =>
    obtain ⟨hr, rfl⟩ := execLdBVx_next h
    exact (Keeps.advance s).trans (.writeBytes _ _ hr rfl)
  | ldMemVx x =>
    obtain ⟨hr, rfl⟩ := execLdMemVx_next h
    have hw : (Instr.ldMemVx x).storeWidth = (s.registersThrough x).length := (s.registersThrough_length x).symm
    exact ((Keeps.advance s).trans (.writeBytes _ _ (hw ▸ hr) hw)).trans (.stepI _ _ rfl)
  | ldVxMem x =>
    obtain ⟨-, rfl⟩ := execLdVxMem_next h
    refine ((Keeps.advance s).trans (.loadRegisters _ _ fun k hk => ?_)).trans (.stepI _ _ rfl)
    rw [State.readBytes_length]
    exact Nat.succ_le_of_lt (Nat.not_le.mp (of_decide_eq_false hk))

/-! ### The statements of the tables -/

/-- Settles O35: the registers of `Keeps`. -/
theorem registersOutsideTableUnchanged : Obligations.RegistersOutsideTableUnchanged := by
  unfold Obligations.RegistersOutsideTableUnchanged
  exact fun _ _ _ h => (exec_keeps h).registers

/-- Settles O36: the bytes of `Keeps`, counted from the value of I at the start. -/
theorem memoryOutsideStoreUnchanged : Obligations.MemoryOutsideStoreUnchanged := by
  unfold Obligations.MemoryOutsideStoreUnchanged
  exact fun _ _ _ h => (exec_keeps h).bytes

/-- Settles O37: five fields of `Keeps`. -/
theorem specialStateWrittenOnlyByItsOwn : Obligations.SpecialStateWrittenOnlyByItsOwn := by
  unfold Obligations.SpecialStateWrittenOnlyByItsOwn
  intro i s t h
  have k := exec_keeps h
  exact ⟨k.index, k.calls, k.delay, k.sound, k.display⟩

/-- Settles O39: the instruction keeps the parameters, and so does the drawing of inputs after it. -/
theorem stepKeepsParameters : Obligations.StepKeepsParameters := by
  unfold Obligations.StepKeepsParameters
  intro s t h
  obtain ⟨w, i, u, -, -, -, he, rfl⟩ := step_next h
  exact (exec_keeps he).params

/-! ### PC (10_state R24) -/

/-- The offset of Bnnn is added within 16 bits (40_control_flow R108). -/
theorem jumpTarget_eq (nnn : Addr) (b : Byte) :
    nnn.setWidth 16 + b.setWidth 16 = BitVec.ofNat 16 (nnn.toNat + b.toNat) := by
  bv_omega

/-- The register that Bnnn adds, V0 or the quirk's. -/
theorem State.jumpOffset_eq (s : State) (nnn : Addr) :
    s.jumpOffset nnn = s.readV (if s.params.quirkJumpVx then nnn.extractLsb' 8 4 else 0x0) := by
  unfold State.jumpOffset
  split <;> rfl

theorem exec_next_pc {i : Instr} {s t : State} (h : exec i s = .next t) : t.pc = i.pcAfter s := by
  cases i with
  | cls | ldImm | addImm | ldReg | orReg | andReg | xorReg | addReg | subReg | shr | subn | shl | ldI | rnd | ldVxDt
  | ldDtVx | ldStVx | addIVx | ldFVx => cases h; rfl
  | jp => cases h; rfl
  | jpV0 nnn => cases h; exact (jumpTarget_eq nnn _).trans (by rw [State.jumpOffset_eq]; rfl)
  | seImm | seReg => cases h; exact congrArg State.pc (s.advanceSkipping_beq ..)
  | sneImm | sneReg => cases h; exact congrArg State.pc (s.advanceSkipping_bne ..)
  | ret =>
    obtain ⟨top, htop, rfl⟩ := execRet_next h
    show s.stack[top.val] = s.stack[s.sp.val - 1]
    simp [htop]
  | call => obtain ⟨free, -, rfl⟩ := execCall_next h; rfl
  | skp => obtain ⟨-, rfl⟩ := execSkp_next h; exact State.advanceSkipping_pc ..
  | sknp =>
    obtain ⟨-, rfl⟩ := execSknp_next h
    refine (State.advanceSkipping_pc ..).trans ?_
    show _ = if s.keyDown _ then s.pc + 2 else s.pc + 4
    cases s.keyDown _ <;> rfl
  | ldVxK =>
    obtain ⟨-, ⟨hk, rfl⟩ | ⟨k, hk, rfl⟩⟩ := execLdVxK_next h
    · exact (if_pos hk).symm
    · refine (if_neg fun h0 => ?_).symm
      rw [(leastKeyDown_eq_none _).mpr h0] at hk
      cases hk
  | drw => obtain ⟨flag, d, rfl⟩ := execDrw_next h; rfl
  | ldBVx => obtain ⟨-, rfl⟩ := execLdBVx_next h; exact State.writeBytes_pc ..
  | ldMemVx => obtain ⟨-, rfl⟩ := execLdMemVx_next h; exact (State.stepI_pc ..).trans (State.writeBytes_pc ..)
  | ldVxMem => obtain ⟨-, rfl⟩ := execLdVxMem_next h; exact (State.stepI_pc ..).trans (State.loadRegisters_pc ..)

/-- Settles O38, instruction by instruction. -/
theorem pcFollowsTable : Obligations.PcFollowsTable := by
  unfold Obligations.PcFollowsTable
  exact fun _ _ _ h => exec_next_pc h

end Sys2Proof.Machine
end

section
/-! PROOFS. The invariant (10_state R24, R30, R36): every operation keeps it, so every step, every action of the driver and
every schedule of both does. -/

namespace Sys2Proof.Machine

open Sys2Proof

/-! ### The stack (10_state R36) -/

/-- Occupied or free, a slot holds at most 0x1000. -/
theorem State.stackOk.slot_le {s : State} (h : s.stackOk) (k : Fin 16) : s.stack[k.val].toNat ≤ 0x1000 := by
  have hk := h k
  split at hk
  · exact hk.2
  · simp [hk]

/-- A push of a return address fills the first free slot. -/
theorem State.stackOk.push {s : State} (h : s.stackOk) {a : Word} (p : Word) (ha : 2 ≤ a.toNat ∧ a.toNat ≤ 0x1000)
    (free : Fin 16) (hf : s.sp.val = free.val) :
    { s with pc := p, sp := free.succ, stack := s.stack.set free.val a }.stackOk := by
  intro k
  have hk := h k
  simp only [Vector.getElem_set, Fin.val_succ]
  obtain hlt | heq | hgt := Nat.lt_trichotomy k.val free.val
  · rw [if_pos (by omega)] at hk
    rwa [if_pos (by omega), if_neg (by omega)]
  · rwa [if_pos (by omega), if_pos heq.symm]
  · rw [if_neg (by omega)] at hk
    rwa [if_neg (by omega), if_neg (by omega)]

/-- A pop clears the slot it frees. -/
theorem State.stackOk.pop {s : State} (h : s.stackOk) (p : Word) (top : Fin 16) (ht : s.sp.val = top.val + 1) :
    { s with pc := p, sp := top.castSucc, stack := s.stack.set top.val 0x0000 }.stackOk := by
  intro k
  have hk := h k
  simp only [Vector.getElem_set, Fin.val_castSucc]
  obtain hlt | heq | hgt := Nat.lt_trichotomy k.val top.val
  · rw [if_pos (by omega)] at hk
    rwa [if_pos hlt, if_neg (by omega)]
  · rw [if_neg (by omega), if_pos heq.symm]
  · rw [if_neg (by omega)] at hk
    rwa [if_neg (by omega), if_neg (by omega)]

/-- An instruction at a PC that can be fetched keeps the stack's form: CALL pushes `pc0 + 2`, RET pops, no other one uses
the stack. -/
theorem exec_keeps_stackOk {i : Instr} {s t : State} (h : exec i s = .next t) (hpc : s.pc.toNat ≤ 0xFFE)
    (hs : s.stackOk) : t.stackOk := by
  cases hi : i.mayUseStack with
  | false =>
    obtain ⟨hsp, hstack⟩ := (exec_keeps h).calls hi
    unfold State.stackOk
    rw [hsp, hstack]
    exact hs
  | true =>
    cases i with
    | call nnn =>
      obtain ⟨free, hf, rfl⟩ := execCall_next h
      have ha : (s.pc + 2).toNat = s.pc.toNat + 2 := by bv_omega
      exact hs.push _ (by omega) free hf
    | ret =>
      obtain ⟨top, ht, rfl⟩ := execRet_next h
      exact hs.pop _ top ht
    | _ => cases hi

/-! ### PC (10_state R24) -/

theorem ite_toNat_le {c : Prop} [Decidable c] {a b : Word} {n : Nat} (ha : a.toNat ≤ n) (hb : b.toNat ≤ n) :
    (if c then a else b).toNat ≤ n := by
  split
  · exact ha
  · exact hb

/-- The table of PC, row by row: the longest way is that of Bnnn. -/
theorem pcAfter_le {s : State} (i : Instr) (hpc : s.pc.toNat ≤ 0xFFE) (hs : s.stackOk) :
    (i.pcAfter s).toNat ≤ 0x10FE := by
  have h0 : s.pc.toNat ≤ 0x10FE := hpc.trans (by decide)
  have h2 : (s.pc + 2).toNat ≤ 0x10FE := by bv_omega
  have h4 : (s.pc + 4).toNat ≤ 0x10FE := by bv_omega
  cases i with
  | jp nnn | call nnn =>
    have hn := nnn.isLt
    exact (BitVec.toNat_setWidth 16 nnn).trans_le ((Nat.mod_le ..).trans (by omega))
  | ret => exact (hs.slot_le ⟨s.sp.val - 1, by omega⟩).trans (by decide)
  | jpV0 nnn =>
    have hn := nnn.isLt
    have hv := (s.readV (if s.params.quirkJumpVx then nnn.extractLsb' 8 4 else 0x0)).isLt
    exact (Nat.mod_le ..).trans (by omega)
  | seImm | sneImm | seReg | sneReg | skp => exact ite_toNat_le h4 h2
  | sknp => exact ite_toNat_le h2 h4
  | ldVxK => exact ite_toNat_le h0 h2
  | _ => exact h2

/-! ### The step and the driver's operations -/

theorem step_keeps_inv {s t : State} (hs : s.Inv) (h : step s = .next t) : t.Inv := by
  obtain ⟨w, i, u, hpc, -, -, he, rfl⟩ := step_next h
  have hstack := exec_keeps_stackOk he hpc hs.stack
  exact
    { mem := (exec_keeps he).canonical hs.mem
      stack := hstack
      pc := (congrArg BitVec.toNat (exec_next_pc he)).trans_le (pcAfter_le i hpc hs.stack) }

theorem resetWith_inv (p : Params) (rnd : Byte) (keys : BitVec 16) (n : Nat) : (State.resetWith p rnd keys n).Inv where
  mem := Memory.nil_wf p
  stack k := by simp [State.resetWith]
  pc := by unfold State.pcOk; simp [State.resetWith]

/-- All that a load can do: the image does not fit and nothing is written, or it is stored (20_memory R64). -/
theorem State.load_cases (s : State) (bytes : List Byte) (base : Nat) :
    (4096 < base + bytes.length ∧ s.load bytes base = .loadOverflow) ∨
      (base + bytes.length ≤ 4096 ∧ s.load bytes base = .ok (s.writeBytes base bytes)) := by
  unfold State.load
  split
  · next h => exact .inl ⟨h, rfl⟩
  · next h => exact .inr ⟨Nat.not_lt.mp h, rfl⟩

/-- The action of a load: nothing, or the image stored within memory. -/
theorem perform_load_next {bytes : List Byte} {base : Nat} {s t : State}
    (h : (Action.load bytes base).perform s = .next t) :
    t = s ∨ (base + bytes.length ≤ 4096 ∧ t = s.writeBytes base bytes) := by
  unfold Action.perform at h
  rcases s.load_cases bytes base with ⟨-, e⟩ | ⟨hfit, e⟩ <;> simp only [e] at h <;> cases h
  · exact .inl rfl
  · exact .inr ⟨hfit, rfl⟩

/-- A run of stores within memory touches neither the stack nor PC. -/
theorem State.Inv.writeBytes {s : State} (hs : s.Inv) (a : Nat) (xs : List Byte) (h : a + xs.length ≤ 4096) :
    (s.writeBytes a xs).Inv where
  mem := s.writeBytes_wf a xs h hs.mem
  stack := by
    unfold State.stackOk
    rw [State.writeBytes_sp, State.writeBytes_stack]
    exact hs.stack
  pc := by
    unfold State.pcOk
    rw [State.writeBytes_pc]
    exact hs.pc

theorem perform_keeps_inv {act : Action} {s t : State} (hs : s.Inv) (h : act.perform s = .next t) : t.Inv := by
  cases act with
  | step => exact step_keeps_inv hs h
  | reset => cases h; exact resetWith_inv ..
  | load bytes base =>
    obtain rfl | ⟨hfit, rfl⟩ := perform_load_next h
    · exact hs
    · exact hs.writeBytes base bytes hfit
  | writeDt | writeSt | tick | deliver => cases h; exact ⟨hs.mem, hs.stack, hs.pc⟩

/-- A schedule that ends in a state did its first action, and the rest from there. -/
theorem runSchedule_cons_next {act : Action} {acts : List Action} {s t : State}
    (h : runSchedule (act :: acts) s = .next t) : ∃ u, act.perform s = .next u ∧ runSchedule acts u = .next t := by
  unfold runSchedule at h
  split at h
  · next u hu => exact ⟨u, hu, h⟩
  · cases h
  · cases h

/-- Settles O57: memory by the frames, the stack by the two instructions that use it, PC by its table. -/
theorem stepKeepsInvariant : Obligations.StepKeepsInvariant := by
  unfold Obligations.StepKeepsInvariant
  exact fun _ _ hs h => step_keeps_inv hs h

/-- Settles O58, by induction on the schedule: every action keeps the invariant. -/
theorem everyScheduleKeepsInvariant : Obligations.EveryScheduleKeepsInvariant := by
  unfold Obligations.EveryScheduleKeepsInvariant
  intro acts
  induction acts with
  | nil => intro s t hs h; cases h; exact hs
  | cons act acts ih =>
    intro s t hs h
    obtain ⟨u, hu, hrest⟩ := runSchedule_cons_next h
    exact ih u t (perform_keeps_inv hs hu) hrest

/-- Settles O56: the reset state is one of the family for which the invariant is proved. -/
theorem invariantAtReset : Obligations.InvariantAtReset := by
  unfold Obligations.InvariantAtReset
  exact resetWith_inv ..

end Sys2Proof.Machine
end

section
/-! PROOFS. The statements about reset and the driver's operations (10_state R33, 70_reset_and_hazards, 20_memory R64,
60_exceptions R194, R195). -/

namespace Sys2Proof.Machine

open Sys2Proof

/-! ### Reset contents of memory (10_state R31, R33) -/

theorem resetByte_font (p : Params) (k : Fin 80) : p.resetByte (p.fontBase.val + k.val) = p.font[k.val] := by
  have hb := p.fontBase.isLt
  rw [Params.resetByte, if_pos (by omega), Params.fontByte, if_pos (by omega), Nat.add_sub_cancel_left,
    Vector.getElem?_eq_getElem k.isLt, Option.getD_some]

theorem resetByte_outside (p : Params) (a : Nat) (h : a < p.fontBase.val ∨ p.fontBase.val + 80 ≤ a) :
    p.resetByte a = 0 := by
  unfold Params.resetByte Params.fontByte
  split
  · split
    · rw [Vector.getElem?_eq_none (by omega), Option.getD_none]
    · rfl
  · rfl

/-- Settles O52: a byte that nothing has written reads as its reset contents, the other fields are constants. -/
theorem resetState : Obligations.ResetState := by
  unfold Obligations.ResetState
  refine ⟨⟨_, _, _, _, rfl⟩, fun _ => rfl, fun p rnd keys n => ⟨rfl, rfl, fun r c => ?_, resetByte_font p,
    resetByte_outside p, fun x => ?_, rfl, fun k => ?_, rfl, rfl⟩⟩
  · simp [State.resetWith]
  · exact Vector.getElem_replicate ..
  · exact Vector.getElem_replicate ..

/-! ### The tick (60_exceptions R194) -/

theorem tickDown_toNat (a : Byte) : (tickDown a).toNat = a.toNat - 1 := by
  unfold tickDown
  split
  · next h => rw [h]; rfl
  · next h => bv_omega

/-- Settles O53: the two timers are all that a tick writes. -/
theorem tickDecrementsToZero : Obligations.TickDecrementsToZero := by
  unfold Obligations.TickDecrementsToZero
  exact fun s => ⟨rfl, tickDown_toNat s.dt, tickDown_toNat s.st⟩

/-- Settles O54: a load that fits is a run of stores. -/
theorem loadWritesImageOrOverflows : Obligations.LoadWritesImageOrOverflows := by
  unfold Obligations.LoadWritesImageOrOverflows
  intro s bytes base
  rcases s.load_cases bytes base with ⟨hover, e⟩ | ⟨hfit, e⟩
  · exact ⟨fun h => absurd h (by omega), fun _ => ⟨e, by rw [e]; rfl⟩⟩
  · refine ⟨fun _ => ⟨_, e, s.writeBytes_eq base bytes, fun k hk => s.readByte_writeBytes_at base hk,
      fun a ha => s.readByte_writeBytes_outside a ha⟩, fun h => absurd h (by omega)⟩

/-- Settles O55, action by action: a step by the frame of its instruction, a tick by the floor at zero. -/
theorem dtNeverIncreasesExceptByFx15 : Obligations.DtNeverIncreasesExceptByFx15 := by
  unfold Obligations.DtNeverIncreasesExceptByFx15
  intro act s t h hw hstep
  cases act with
  | step =>
    obtain ⟨w, i, u, -, hf, hd, he, rfl⟩ := step_next h
    have hi : ∀ x, i ≠ .ldDtVx x := fun x hx => hstep rfl w x hf (hx ▸ hd)
    exact (congrArg BitVec.toNat ((exec_keeps he).delay hi)).le
  | reset => cases h; exact Nat.zero_le _
  | load bytes base =>
    obtain rfl | ⟨-, rfl⟩ := perform_load_next h
    · exact le_rfl
    · rw [State.writeBytes_dt]
  | writeDt a => exact absurd rfl (hw a)
  | writeSt | deliver => cases h; exact le_rfl
  | tick => cases h; exact (tickDown_toNat s.dt).trans_le (Nat.sub_le ..)

end Sys2Proof.Machine
end

section
/-! PROOFS. The key instructions, by the keypad and the key levels (44_timers_keypad R173 to R175, 60_exceptions R184). -/

namespace Sys2Proof.Machine

open Sys2Proof

variable {x : Reg} {s : State}

theorem execSkp_of_keypad (hp : s.params.keypadPresent = true) :
    execSkp x s = .next (s.advanceSkipping (s.keyDown (s.readV x))) := if_pos hp

theorem execSknp_of_keypad (hp : s.params.keypadPresent = true) :
    execSknp x s = .next (s.advanceSkipping (!s.keyDown (s.readV x))) := if_pos hp

theorem execLdVxK_of_no_key (hp : s.params.keypadPresent = true) (hk : leastKeyDown s.keys = none) :
    execLdVxK x s = .next s := by
  rw [execLdVxK, if_pos hp, hk]
  rfl

theorem execLdVxK_of_key {k : Nat} (hp : s.params.keypadPresent = true) (hk : leastKeyDown s.keys = some k) :
    execLdVxK x s = .next (s.advance.writeV x (BitVec.ofNat 8 k)) := by
  rw [execLdVxK, if_pos hp, hk]

theorem execSkp_of_no_keypad (hp : s.params.keypadPresent = false) :
    execSkp x s = raiseAt .unsupportedOperation (.skp x) s := if_neg (Bool.eq_false_iff.mp hp)

theorem execSknp_of_no_keypad (hp : s.params.keypadPresent = false) :
    execSknp x s = raiseAt .unsupportedOperation (.sknp x) s := if_neg (Bool.eq_false_iff.mp hp)

theorem execLdVxK_of_no_keypad (hp : s.params.keypadPresent = false) :
    execLdVxK x s = raiseAt .unsupportedOperation (.ldVxK x) s := if_neg (Bool.eq_false_iff.mp hp)

end Sys2Proof.Machine
end

section
/-! PROOFS. The statements about timers and the keypad (44_timers_keypad) with a reading of DT or of the key levels. -/

namespace Sys2Proof.Machine

open Sys2Proof

/-- Settles O30: DT is written to Vx as it is. -/
theorem ldVxDtReadsTimer : Obligations.LdVxDtReadsTimer := by
  unfold Obligations.LdVxDtReadsTimer
  exact fun x => ⟨decodeWord_encode (.ldVxDt x), fun _ => rfl⟩

/-- Settles O32: both forms are a conditional skip on the level of one key. -/
theorem keySkipsWithKeypad : Obligations.KeySkipsWithKeypad := by
  unfold Obligations.KeySkipsWithKeypad
  refine fun x => ⟨decodeWord_encode (.skp x), decodeWord_encode (.sknp x), fun s hp => ?_⟩
  simp only [exec, execSkp_of_keypad hp, execSknp_of_keypad hp, State.advanceSkipping_eq, State.keyDown]
  exact ⟨fun hk => by simp [hk], fun hk => by simp [hk]⟩

/-- Settles O33: with no key down the wait, else the least key. -/
theorem keyWaitWithKeypad : Obligations.KeyWaitWithKeypad := by
  unfold Obligations.KeyWaitWithKeypad
  refine fun x => ⟨decodeWord_encode (.ldVxK x), fun s hp => ⟨fun h0 => ?_, fun k hk hdown hleast => ?_⟩⟩
  · exact execLdVxK_of_no_key hp ((leastKeyDown_eq_none _).mpr h0)
  · exact execLdVxK_of_key hp ((leastKeyDown_eq_some _ _).mpr ⟨hdown, hk, hleast⟩)

/-- Settles O34: the keypad is looked at before anything else. -/
theorem keyInstructionsFaultWithoutKeypad : Obligations.KeyInstructionsFaultWithoutKeypad := by
  unfold Obligations.KeyInstructionsFaultWithoutKeypad
  exact fun _ _ hp => ⟨execSkp_of_no_keypad hp, execSknp_of_no_keypad hp, execLdVxK_of_no_keypad hp⟩

end Sys2Proof.Machine
end

section
/-! PROOFS. What is never read (10_state R28, 40_control_flow R100): a change of ST and of the inputs that keeps what the
instruction reads goes through the execution unchanged. -/

namespace Sys2Proof.Machine

open Sys2Proof

/-- The state with ST and the two inputs each changed by a function. -/
def State.mapHidden (g h : Byte → Byte) (k : BitVec 16 → BitVec 16) (s : State) : State :=
  { s with st := g s.st, rnd := h s.rnd, keys := k s.keys }

section

variable (g h : Byte → Byte) (k : BitVec 16 → BitVec 16) (s : State)

/-! ### The shared operations -/

theorem State.advanceSkipping_mapHidden (c : Bool) :
    (s.mapHidden g h k).advanceSkipping c = (s.advanceSkipping c).mapHidden g h k := by
  cases c <;> rfl

theorem State.writeBytes_mapHidden (a : Nat) (xs : List Byte) :
    (s.mapHidden g h k).writeBytes a xs = (s.writeBytes a xs).mapHidden g h k := by
  induction xs generalizing s a with
  | nil => rfl
  | cons x xs ih => exact ih (s.writeByte a x) (a + 1)

theorem State.stepI_mapHidden (x : Reg) : (s.mapHidden g h k).stepI x = (s.stepI x).mapHidden g h k := by
  unfold State.stepI
  cases hq : s.params.quirkLoadStoreKeepI <;> simp [State.mapHidden, State.writeI, hq]

theorem State.loadRegisters_mapHidden (xs : List Byte) :
    (s.mapHidden g h k).loadRegisters xs = (s.loadRegisters xs).mapHidden g h k := by
  simp only [State.mapHidden, State.loadRegisters]

theorem State.push_mapHidden (a : Word) :
    (s.mapHidden g h k).push a = (s.push a).map (State.mapHidden g h k) := by
  unfold State.push
  by_cases hf : s.sp.val < 16
  · rw [dif_pos hf]; exact dif_pos hf
  · rw [dif_neg hf]; exact dif_neg hf

theorem State.pop_mapHidden :
    (s.mapHidden g h k).pop = s.pop.map fun p => (p.1, p.2.mapHidden g h k) := by
  unfold State.pop
  by_cases ht : 0 < s.sp.val
  · rw [dif_pos ht]; exact dif_pos ht
  · rw [dif_neg ht]; exact dif_neg ht

theorem State.loadAtI_mapHidden (n : Nat) : (s.mapHidden g h k).loadAtI n = s.loadAtI n := rfl

theorem State.storeAtI_mapHidden (xs : List Byte) :
    (s.mapHidden g h k).storeAtI xs = (s.storeAtI xs).map (State.mapHidden g h k) := by
  unfold State.storeAtI
  rw [State.writeBytes_mapHidden, apply_ite (Option.map (State.mapHidden g h k))]
  rfl

theorem State.keyDown_mapHidden (hk : k s.keys = s.keys) (a : Byte) :
    (s.mapHidden g h k).keyDown a = s.keyDown a :=
  congrArg (·.getLsbD (a.toNat % 16)) hk

/-! ### The execution -/

/-- ST is written by LD ST, Vx alone and read by none; the random byte is read by RND, the key levels by the three key
instructions with a keypad. -/
theorem exec_mapHidden (i : Instr) (hst : ∀ x, i = .ldStVx x → g = id) (hrnd : ∀ x nn, i = .rnd x nn → h s.rnd = s.rnd)
    (hkeys : ∀ x, i = .skp x ∨ i = .sknp x ∨ i = .ldVxK x → s.params.keypadPresent = true → k s.keys = s.keys) :
    exec i (s.mapHidden g h k) = onNext (State.mapHidden g h k) (exec i s) := by
  cases i with
  | cls | jp | jpV0 | ldImm | addImm | ldReg | orReg | andReg | xorReg | addReg | subReg | shr | subn | shl | ldI | ldVxDt
  | ldDtVx | addIVx | ldFVx => rfl
  | seImm | sneImm | seReg | sneReg => exact congrArg _ (State.advanceSkipping_mapHidden g h k s _)
  | ldStVx x =>
    obtain rfl := hst x rfl
    rfl
  | rnd x nn =>
    have hr := hrnd x nn rfl
    show Host.Outcome.next (State.writeV _ x (h s.rnd &&& nn)) = _
    rw [hr]
    rfl
  | ret =>
    simp only [exec, execRet, State.pop_mapHidden]
    cases s.pop <;> rfl
  | call nnn =>
    have e : (s.mapHidden g h k).push (s.mapHidden g h k).advance.pc = _ := State.push_mapHidden g h k s s.advance.pc
    simp only [exec, execCall, e]
    cases s.push s.advance.pc <;> rfl
  | drw x y n =>
    simp only [exec, execDrw, State.loadAtI_mapHidden]
    cases s.loadAtI n.toNat <;> rfl
  | ldBVx x =>
    have e : (s.mapHidden g h k).advance.storeAtI (decimalDigits ((s.mapHidden g h k).readV x)) = _ :=
      State.storeAtI_mapHidden g h k s.advance (decimalDigits (s.readV x))
    simp only [exec, execLdBVx, e]
    cases s.advance.storeAtI (decimalDigits (s.readV x)) <;> rfl
  | ldMemVx x =>
    have e : (s.mapHidden g h k).advance.storeAtI ((s.mapHidden g h k).registersThrough x) = _ :=
      State.storeAtI_mapHidden g h k s.advance (s.registersThrough x)
    simp only [exec, execLdMemVx, e]
    cases s.advance.storeAtI (s.registersThrough x) with
    | none => rfl
    | some stored => exact congrArg _ (State.stepI_mapHidden g h k stored x)
  | ldVxMem x =>
    simp only [exec, execLdVxMem, State.loadAtI_mapHidden]
    cases s.loadAtI (x.toNat + 1) with
    | none => rfl
    | some bytes =>
      have e : (s.mapHidden g h k).advance.loadRegisters bytes = _ := State.loadRegisters_mapHidden g h k s.advance bytes
      simp only [e, State.stepI_mapHidden, onNext]
  | skp x =>
    cases hp : s.params.keypadPresent with
    | false =>
      exact (execSkp_of_no_keypad (s := s.mapHidden g h k) hp).trans
        (congrArg (onNext (State.mapHidden g h k)) (execSkp_of_no_keypad hp)).symm
    | true =>
      refine (execSkp_of_keypad (s := s.mapHidden g h k) hp).trans ?_
      rw [State.keyDown_mapHidden g h k s (hkeys x (.inl rfl) hp), State.advanceSkipping_mapHidden]
      exact congrArg (onNext _) (execSkp_of_keypad hp).symm
  | sknp x =>
    cases hp : s.params.keypadPresent with
    | false =>
      exact (execSknp_of_no_keypad (s := s.mapHidden g h k) hp).trans
        (congrArg (onNext (State.mapHidden g h k)) (execSknp_of_no_keypad hp)).symm
    | true =>
      refine (execSknp_of_keypad (s := s.mapHidden g h k) hp).trans ?_
      rw [State.keyDown_mapHidden g h k s (hkeys x (.inr (.inl rfl)) hp), State.advanceSkipping_mapHidden]
      exact congrArg (onNext _) (execSknp_of_keypad hp).symm
  | ldVxK x =>
    cases hp : s.params.keypadPresent with
    | false =>
      exact (execLdVxK_of_no_keypad (s := s.mapHidden g h k) hp).trans
        (congrArg (onNext (State.mapHidden g h k)) (execLdVxK_of_no_keypad hp)).symm
    | true =>
      have hs : leastKeyDown (s.mapHidden g h k).keys = leastKeyDown s.keys :=
        congrArg leastKeyDown (hkeys x (.inr (.inr rfl)) hp)
      cases hl : leastKeyDown s.keys with
      | none =>
        exact (execLdVxK_of_no_key (s := s.mapHidden g h k) hp (hs.trans hl)).trans
          (congrArg (onNext (State.mapHidden g h k)) (execLdVxK_of_no_key hp hl)).symm
      | some key =>
        exact (execLdVxK_of_key (s := s.mapHidden g h k) hp (hs.trans hl)).trans
          (congrArg (onNext (State.mapHidden g h k)) (execLdVxK_of_key hp hl)).symm

end

/-! ### The statements -/

/-- Settles O40: the change replaces ST alone; LD ST, Vx overwrites it in either state. -/
theorem soundTimerIsNeverRead : Obligations.SoundTimerIsNeverRead := by
  unfold Obligations.SoundTimerIsNeverRead
  intro i s a
  by_cases hi : ∃ x, i = .ldStVx x
  · obtain ⟨x, rfl⟩ := hi
    rfl
  · have e : exec i { s with st := a } = _ :=
      exec_mapHidden (fun _ => a) id id s i (fun x hx => absurd ⟨x, hx⟩ hi) (fun _ _ _ => rfl) (fun _ _ _ => rfl)
    rw [e]
    cases exec i s with
    | next t =>
      refine congrArg Host.Outcome.next ?_
      split
      · exact absurd ⟨_, rfl⟩ hi
      · rfl
    | fault f => rfl
    | refused r => rfl

/-- Settles O41: a change of one input alone, for the instructions that do not read it. -/
theorem inputsAreReadOnlyByTheirInstructions : Obligations.InputsAreReadOnlyByTheirInstructions := by
  unfold Obligations.InputsAreReadOnlyByTheirInstructions
  refine fun i s rnd keys => ⟨fun hi => ?_, fun hi => ?_⟩
  · exact exec_mapHidden id (fun _ => rnd) id s i (fun _ _ => rfl) (fun x nn hx => absurd hx (hi x nn)) fun _ _ _ => rfl
  · refine exec_mapHidden id id (fun _ => keys) s i (fun _ _ => rfl) (fun _ _ _ => rfl) fun x hx hp => ?_
    obtain hi | hi := hi
    · obtain ⟨hskp, hsknp, hwait⟩ := hi x
      exact absurd hx (by simp [hskp, hsknp, hwait])
    · exact absurd (hp.symm.trans hi) (by decide)

end Sys2Proof.Machine
end

section
/-! PROOFS. The step and its faults (40_control_flow R100, 60_exceptions R180 to R187): what a step does with the word it
fetches, and how each instruction's execution can end. -/

namespace Sys2Proof.Machine

open Sys2Proof

/-! ### The step, by the word fetched -/

theorem State.fetch_of_inside {s : State} (h : s.pc.toNat ≤ 0xFFE) :
    s.fetch = .ok (wordOfBytes (s.readByte s.pc.toNat) (s.readByte (s.pc.toNat + 1))) :=
  if_pos (by omega)

theorem step_of_decodeWord {s : State} {w : Word} {i : Instr} (hf : s.fetch = .ok w) (hd : decodeWord w = .ok i) :
    step s = onNext State.drawInputs (exec i s) := by
  simp only [step, hf, hd]

theorem step_of_reject {s : State} {w : Word} {e : Reject} (hf : s.fetch = .ok w) (hd : decodeWord w = .error e) :
    step s = .fault (.illegalInstruction s.pc w) := by
  simp only [step, hf, hd]

theorem decodeWord_of_decode {a b : Byte} {i : Instr} {rest : List Byte} (h : decode [a, b] = .ok (i, rest)) :
    decodeWord (wordOfBytes a b) = .ok i := by
  simp only [decode] at h
  cases hd : decodeWord (wordOfBytes a b) with
  | error e => rw [hd] at h; cases h
  | ok j => rw [hd] at h; cases h; rfl

/-! ### Every execution answers a next state or a fault -/

theorem exec_next_or_fault (i : Instr) (s : State) : (∃ t, exec i s = .next t) ∨ ∃ f, exec i s = .fault f := by
  cases i with
  | ret | call | drw | ldBVx | ldMemVx | ldVxMem =>
    simp only [exec, execRet, execCall, execDrw, execLdBVx, execLdMemVx, execLdVxMem]
    split
    · exact .inl ⟨_, rfl⟩
    · exact .inr ⟨_, rfl⟩
  | skp x =>
    cases hp : s.params.keypadPresent with
    | true => exact .inl ⟨_, execSkp_of_keypad hp⟩
    | false => exact .inr ⟨_, execSkp_of_no_keypad hp⟩
  | sknp x =>
    cases hp : s.params.keypadPresent with
    | true => exact .inl ⟨_, execSknp_of_keypad hp⟩
    | false => exact .inr ⟨_, execSknp_of_no_keypad hp⟩
  | ldVxK x =>
    cases hp : s.params.keypadPresent with
    | true =>
      cases hk : leastKeyDown s.keys with
      | some k => exact .inl ⟨_, execLdVxK_of_key hp hk⟩
      | none => exact .inl ⟨_, execLdVxK_of_no_key hp hk⟩
    | false => exact .inr ⟨_, execLdVxK_of_no_keypad hp⟩
  | _ => exact .inl ⟨_, rfl⟩

/-! ### An access at I that leaves memory (60_exceptions R187) -/

theorem execDrw_of_outside {x y : Reg} {n : Nibble} {s : State} (h0 : 0 < n.toNat) (h : 4096 < s.i.toNat + n.toNat) :
    execDrw x y n s = raiseMemOutOfBounds (.drw x y n) s := by
  rw [execDrw, s.loadAtI_of_outside n.toNat (by omega) h]

theorem execLdBVx_of_outside {x : Reg} {s : State} (h : 4096 < s.i.toNat + 3) :
    execLdBVx x s = raiseMemOutOfBounds (.ldBVx x) s := by
  rw [execLdBVx, s.advance.storeAtI_of_outside (decimalDigits (s.readV x)) (by simp) h]

theorem execLdMemVx_of_outside {x : Reg} {s : State} (h : 4096 < s.i.toNat + (x.toNat + 1)) :
    execLdMemVx x s = raiseMemOutOfBounds (.ldMemVx x) s := by
  rw [execLdMemVx, s.advance.storeAtI_of_outside _ (by simp) (by simpa using h)]

theorem execLdVxMem_of_outside {x : Reg} {s : State} (h : 4096 < s.i.toNat + (x.toNat + 1)) :
    execLdVxMem x s = raiseMemOutOfBounds (.ldVxMem x) s := by
  rw [execLdVxMem, s.loadAtI_of_outside _ (by omega) h]

/-! ### The statements -/

/-- Settles O24: the whole range of each access is checked before it has any effect. -/
theorem outOfRangeAccessFaults : Obligations.OutOfRangeAccessFaults := by
  unfold Obligations.OutOfRangeAccessFaults
  exact fun x y n s => ⟨fun h0 h => execDrw_of_outside h0 (by omega), fun h => execLdBVx_of_outside (by omega),
    fun h => ⟨execLdMemVx_of_outside (by omega), execLdVxMem_of_outside (by omega)⟩⟩

/-- Settles O42: the two bytes at PC are the word fetched, and the decoder reads the instruction from it. -/
theorem stepRunsDecodedInstruction : Obligations.StepRunsDecodedInstruction := by
  unfold Obligations.StepRunsDecodedInstruction
  exact fun s i hpc hd _ => step_of_decodeWord (State.fetch_of_inside hpc) (decodeWord_of_decode hd)

/-- Settles O44: the decoder rejects a word that selects no row. -/
theorem illegalWordFaults : Obligations.IllegalWordFaults := by
  unfold Obligations.IllegalWordFaults
  intro s hpc hw
  obtain ⟨e, hd⟩ := decodeWord_eq_error_of_illegal hw
  exact step_of_reject (State.fetch_of_inside hpc) hd

/-- Settles O45: nine instructions can fault, each in one way. -/
theorem faultsAreTheListedOnes : Obligations.FaultsAreTheListedOnes := by
  unfold Obligations.FaultsAreTheListedOnes
  intro i s f h
  cases i with
  | ret => obtain ⟨-, rfl⟩ := execRet_fault h; exact ⟨rfl, rfl, rfl, rfl⟩
  | call => obtain ⟨-, rfl⟩ := execCall_fault h; exact ⟨rfl, rfl, rfl, rfl⟩
  | skp => obtain ⟨-, rfl⟩ := execSkp_fault h; exact ⟨rfl, rfl, rfl, rfl⟩
  | sknp => obtain ⟨-, rfl⟩ := execSknp_fault h; exact ⟨rfl, rfl, rfl, rfl⟩
  | ldVxK => obtain ⟨-, rfl⟩ := execLdVxK_fault h; exact ⟨rfl, rfl, rfl, rfl⟩
  | drw => obtain rfl := execDrw_fault h; exact ⟨rfl, rfl, rfl, rfl⟩
  | ldBVx => obtain rfl := execLdBVx_fault h; exact ⟨rfl, rfl, rfl, rfl⟩
  | ldMemVx => obtain rfl := execLdMemVx_fault h; exact ⟨rfl, rfl, rfl, rfl⟩
  | ldVxMem => obtain rfl := execLdVxMem_fault h; exact ⟨rfl, rfl, rfl, rfl⟩
  | _ => cases h

/-- Settles O46: fetch and decode fault or go on, and so does every execution. -/
theorem everyStepSucceedsOrFaults : Obligations.EveryStepSucceedsOrFaults := by
  unfold Obligations.EveryStepSucceedsOrFaults
  intro s
  cases hf : s.fetch with
  | error f => exact .inr ⟨f, step_of_fetch_error hf⟩
  | ok w =>
    cases hd : decodeWord w with
    | error e => exact .inr ⟨_, step_of_reject hf hd⟩
    | ok i =>
      rw [step_of_decodeWord hf hd]
      obtain ⟨t, he⟩ | ⟨f, he⟩ := exec_next_or_fault i s
      · exact .inl ⟨t.drawInputs, by rw [he]; rfl⟩
      · exact .inr ⟨f, by rw [he]; rfl⟩

/-- Settles O47: the jump's target, 12 bits of PC, is PC itself. -/
theorem endedProgramStaysPut : Obligations.EndedProgramStaysPut := by
  unfold Obligations.EndedProgramStaysPut
  rintro s ⟨hpc, hf⟩
  have hback : (s.pc.setWidth 12).setWidth 16 = s.pc := by bv_omega
  rw [step_of_decodeWord hf (decodeWord_encode (.jp (s.pc.setWidth 12)))]
  simp only [exec, execJp, hback]
  rfl

end Sys2Proof.Machine
end

section
/-! PROOFS. The remaining statements about control flow and arithmetic: a CALL and the RET after it, Bnnn, the two shifts. -/

namespace Sys2Proof.Machine

open Sys2Proof

/-- Settles O6: the register added is V0 or the quirk's, the sum is taken in 16 bits. -/
theorem jpV0AddsOffset : Obligations.JpV0AddsOffset := by
  unfold Obligations.JpV0AddsOffset
  refine fun nnn => ⟨decodeWord_encode (.jpV0 nnn), fun s => ?_⟩
  simp only [exec, execJpV0, State.jumpOffset_eq, jumpTarget_eq]
  exact ⟨fun hq => by rw [hq]; rfl, fun hq => by rw [hq]; rfl⟩

/-- Settles O7: the return finds the slot that the call filled on top, and clears it. -/
theorem callThenRetRoundTrip : Obligations.CallThenRetRoundTrip := by
  unfold Obligations.CallThenRetRoundTrip
  intro nnn s free hf
  refine ⟨_, execCall_of_free free hf, ?_⟩
  have hsp : free.castSucc = s.sp := Fin.ext hf.symm
  simp only [exec]
  rw [execRet_of_top free]
  · simp only [Vector.getElem_set_self, Vector.set_set, hsp]
  · exact Fin.val_succ free

/-! ### The bits shifted out and the shifts, as numbers (41_arithmetic_logic R129, R131) -/

/-- A flag that repeats one bit is that bit as a byte. -/
theorem flagByte_of_bit {n : Nat} (h : n < 2) : flagByte (decide (n = 1)) = BitVec.ofNat 8 n := by
  obtain rfl | rfl : n = 0 ∨ n = 1 := by omega
  · rfl
  · rfl

theorem shiftedOutRight_eq (a : Byte) : shiftedOutRight a = BitVec.ofNat 8 (a.toNat % 2) := by
  have hbit : a.getLsbD 0 = decide (a.toNat % 2 = 1) := Nat.testBit_zero ..
  rw [shiftedOutRight, hbit, flagByte_of_bit (Nat.mod_lt _ (by decide))]

theorem shiftedOutLeft_eq (a : Byte) : shiftedOutLeft a = BitVec.ofNat 8 (a.toNat / 128) := by
  have ha := a.isLt
  have hbit : a.getLsbD 7 = decide (a.toNat / 128 % 2 = 1) := Nat.testBit_eq_decide_div_mod_eq
  rw [shiftedOutLeft, hbit, flagByte_of_bit (Nat.mod_lt _ (by decide)), Nat.mod_eq_of_lt (by omega)]

theorem ushiftRight_one_eq (a : Byte) : a >>> 1 = BitVec.ofNat 8 (a.toNat / 2) := by
  bv_omega

theorem shiftLeft_one_eq (a : Byte) : a <<< 1 = BitVec.ofNat 8 (2 * a.toNat) := by
  bv_omega

/-- Settles O15: the source is the quirk's choice, and the flag and the result are those of one shift of it. -/
theorem shrShiftsOneRight : Obligations.ShrShiftsOneRight := by
  unfold Obligations.ShrShiftsOneRight
  refine fun x y => ⟨decodeWord_encode (.shr x y), fun s a ha => ?_⟩
  obtain rfl : a = s.shiftSource x y := ha
  rw [← shiftedOutRight_eq, ← ushiftRight_one_eq]
  rfl

/-- Settles O16: as O15, the other way. -/
theorem shlShiftsOneLeft : Obligations.ShlShiftsOneLeft := by
  unfold Obligations.ShlShiftsOneLeft
  refine fun x y => ⟨decodeWord_encode (.shl x y), fun s a ha => ?_⟩
  obtain rfl : a = s.shiftSource x y := ha
  rw [← shiftedOutLeft_eq, ← shiftLeft_one_eq]
  rfl

end Sys2Proof.Machine
end

section
/-! PROOFS. The remaining statements about the index register and memory (42_memory_index, 20_memory R60). -/

namespace Sys2Proof.Machine

open Sys2Proof

/-- Settles O19: the flag compares the untruncated sum, I takes it modulo 65536. -/
theorem addIFlagsRange : Obligations.AddIFlagsRange := by
  unfold Obligations.AddIFlagsRange
  refine fun x => ⟨decodeWord_encode (.addIVx x), fun s => ?_⟩
  rw [← flagByte_decide]
  rfl

/-- A glyph's address does not wrap: FONT_BASE is at most 432, five times a byte at most 1275. -/
theorem glyphAddress_toNat (p : Params) (a : Byte) : (glyphAddress p a).toNat = p.fontBase.val + 5 * a.toNat := by
  have := p.fontBase.isLt
  have := a.isLt
  rw [glyphAddress, BitVec.toNat_ofNat]
  exact Nat.mod_eq_of_lt (by omega)

/-- Settles O20: the address written is the exact sum, at most 432 + 1275. -/
theorem ldFPointsAtGlyph : Obligations.LdFPointsAtGlyph := by
  unfold Obligations.LdFPointsAtGlyph
  refine fun x => ⟨decodeWord_encode (.ldFVx x), fun s => ⟨_, glyphAddress_toNat s.params (s.readV x), ?_, rfl⟩⟩
  have := s.params.fontBase.isLt
  have := (s.readV x).isLt
  rw [glyphAddress_toNat]
  omega

/-! ### The accesses at I within memory (20_memory R55) -/

theorem execLdBVx_of_inside {x : Reg} {s : State} (h : s.i.toNat + 3 ≤ 4096) :
    execLdBVx x s = .next (s.advance.writeBytes s.i.toNat (decimalDigits (s.readV x))) := by
  rw [execLdBVx, s.advance.storeAtI_of_inRange (decimalDigits (s.readV x)) (.inr h)]
  rfl

theorem execLdMemVx_of_inside {x : Reg} {s : State} (h : s.i.toNat + (x.toNat + 1) ≤ 4096) :
    execLdMemVx x s = .next ((s.advance.writeBytes s.i.toNat (s.registersThrough x)).stepI x) := by
  rw [execLdMemVx, s.advance.storeAtI_of_inRange (s.registersThrough x) (.inr (by simpa using h))]
  rfl

theorem execLdVxMem_of_inside {x : Reg} {s : State} (h : s.i.toNat + (x.toNat + 1) ≤ 4096) :
    execLdVxMem x s = .next ((s.advance.loadRegisters (s.readBytes s.i.toNat (x.toNat + 1))).stepI x) := by
  rw [execLdVxMem, s.loadAtI_of_inRange _ (.inr h)]

/-- I after an access within memory, as a number, where `t` has the I and the parameters of `s` (42_memory_index R144,
R145). -/
theorem State.stepI_i_toNat {s t : State} {x : Reg} (h : s.i.toNat + (x.toNat + 1) ≤ 4096) (hi : t.i = s.i)
    (hp : t.params = s.params) :
    (t.stepI x).i.toNat = if s.params.quirkLoadStoreKeepI then s.i.toNat else s.i.toNat + x.toNat + 1 := by
  rw [State.stepI_i, hi, hp, apply_ite BitVec.toNat, BitVec.toNat_ofNat, Nat.mod_eq_of_lt (by omega)]

/-- A step of I changes nothing but I. -/
theorem State.stepI_eq (s : State) (x : Reg) : s.stepI x = { s with i := (s.stepI x).i } := by
  unfold State.stepI
  split <;> rfl

/-- A load of registers changes nothing but V. -/
theorem State.loadRegisters_eq (s : State) (xs : List Byte) :
    s.loadRegisters xs = { s with v := (s.loadRegisters xs).v } := rfl

/-- What Fx55 leaves at I + k, for k up to x (42_memory_index R144). -/
theorem readByte_of_storedRegisters (s : State) {x k : Reg} (h : k.toNat ≤ x.toNat) :
    ((s.advance.writeBytes s.i.toNat (s.registersThrough x)).stepI x).readByte (s.i.toNat + k.toNat) = s.readV k := by
  rw [State.readByte_stepI, State.readByte_writeBytes, if_pos (Nat.le_add_right ..), Nat.add_sub_cancel_left,
    State.registersThrough_getD _ _ _ h]

/-- What Fx33 leaves at I + k, as a number: digit k (42_memory_index R143). -/
theorem readByte_of_storedDigits (s : State) (b : Byte) {k : Nat} (hk : k < 3) :
    ((s.advance.writeBytes s.i.toNat (decimalDigits b)).readByte (s.i.toNat + k)).toNat =
      [b.toNat / 100, b.toNat / 10 % 10, b.toNat % 10][k] := by
  rw [State.readByte_writeBytes_at _ _ hk]
  simp only [← decimalDigits_toNat b]
  exact (List.getElem_map (h := hk) BitVec.toNat).symm

/-! ### The statements -/

/-- Settles O21: the three stored bytes are the digits. -/
theorem ldBStoresDigits : Obligations.LdBStoresDigits := by
  unfold Obligations.LdBStoresDigits
  refine fun x => ⟨decodeWord_encode (.ldBVx x), fun s h => ?_⟩
  have he := execLdBVx_of_inside (x := x) (s := s) (by omega)
  refine ⟨_, he, s.advance.writeBytes_eq .., ?_, ?_, ?_, fun a ha => ?_⟩
  · exact readByte_of_storedDigits s (s.readV x) (k := 0) (by decide)
  · exact readByte_of_storedDigits s (s.readV x) (k := 1) (by decide)
  · exact readByte_of_storedDigits s (s.readV x) (k := 2) (by decide)
  · exact s.advance.readByte_writeBytes_outside a (ha.imp_right Nat.succ_le_of_lt)

/-- Settles O22: the stores, then the step of I. -/
theorem storeRegistersThroughVx : Obligations.StoreRegistersThroughVx := by
  unfold Obligations.StoreRegistersThroughVx
  refine fun x => ⟨decodeWord_encode (.ldMemVx x), fun s h => ?_⟩
  have hr : s.i.toNat + (x.toNat + 1) ≤ 4096 := by omega
  refine ⟨_, execLdMemVx_of_inside hr, ?_, State.stepI_i_toNat hr (State.writeBytes_i ..) (State.writeBytes_params ..),
    fun k hk => readByte_of_storedRegisters s hk, fun a ha => ?_⟩
  · rw [State.stepI_mem]
    refine (State.stepI_eq _ x).trans ?_
    generalize (State.stepI _ x).i = j
    exact congrArg (fun t : State => { t with i := j }) (s.advance.writeBytes_eq ..)
  · rw [State.readByte_stepI]
    exact s.advance.readByte_writeBytes_outside a (by rw [State.registersThrough_length]; omega)

/-- Settles O23: the load of the registers, then the step of I. -/
theorem loadRegistersThroughVx : Obligations.LoadRegistersThroughVx := by
  unfold Obligations.LoadRegistersThroughVx
  refine fun x => ⟨decodeWord_encode (.ldVxMem x), fun s h => ?_⟩
  have hr : s.i.toNat + (x.toNat + 1) ≤ 4096 := by omega
  refine ⟨_, execLdVxMem_of_inside hr, ?_, State.stepI_i_toNat hr (State.loadRegisters_i ..) (State.loadRegisters_params ..),
    fun k => ?_⟩
  · rw [State.stepI_v]
    refine (State.stepI_eq _ x).trans ?_
    generalize (State.stepI _ x).i = j
    exact congrArg (fun t : State => { t with i := j }) (s.advance.loadRegisters_eq _)
  · simp only [State.readV_stepI, State.readV_loadRegisters, State.readBytes_getD, Nat.lt_succ_iff, State.readV_advance]

/-- Settles O25: the fetch at I + k reads the bytes of Vk and of the register after it. -/
theorem storeIsSeenByFetch : Obligations.StoreIsSeenByFetch := by
  unfold Obligations.StoreIsSeenByFetch
  intro x s t k m he hm hx
  obtain ⟨hr, rfl⟩ := execLdMemVx_next he
  have hpc : (s.i + k.setWidth 16).toNat = s.i.toNat + k.toNat := by bv_omega
  have hfirst := readByte_of_storedRegisters s (x := x) (k := k) (by omega)
  have hsecond := readByte_of_storedRegisters s hx
  rw [← hpc] at hfirst
  rw [hm, ← Nat.add_assoc, ← hpc] at hsecond
  refine (State.fetch_of_inside ?_).trans (congrArg₂ (fun a b => Except.ok (wordOfBytes a b)) hfirst hsecond)
  simp only [hpc]
  omega

end Sys2Proof.Machine
end

section
/-! PROOFS. The statements about sprites (43_graphics R161 to R163): no two dots at one place, what a draw does to each pixel,
and a draw done twice. -/

namespace Sys2Proof.Machine

open Sys2Proof

/-! ### Dots at different places (43_graphics R162) -/

/-- Along an axis, two offsets below its size land at different coordinates. -/
theorem lands_inj {wrap : Bool} {size start j k pos : Nat} (hj : j < size) (hk : k < size)
    (h : lands wrap size start j pos) (g : lands wrap size start k pos) : j = k := by
  unfold lands at h g
  cases wrap with
  | false =>
    simp only [Bool.false_eq_true, if_false] at h g
    omega
  | true =>
    simp only [if_true] at h g
    have hmod : j ≡ k [MOD size] := Nat.ModEq.add_left_cancel' start (h.trans g.symm)
    exact hmod.eq_of_lt_of_lt hj hk

theorem spriteDot_eq_some {wrap : Bool} {x0 y0 k j : Nat} {b : Byte} {t : Dot} (h : spriteDot wrap x0 y0 b k j = some t) :
    lands wrap 32 y0 k t.row.val ∧ lands wrap 64 x0 j t.col.val := by
  unfold spriteDot at h
  split at h
  · next hr hc =>
    cases h
    exact ⟨(place_eq_some ..).mp hr, (place_eq_some ..).mp hc⟩
  · cases h

/-- A sprite of at most 32 rows and of 8 columns puts its dots at pairwise different places. -/
theorem spriteDots_pairwise (wrap : Bool) (x0 y0 : Nat) (rows : List Byte) (hlen : rows.length ≤ 32) :
    (spriteDots wrap x0 y0 rows).Pairwise fun d e => (d.row, d.col) ≠ (e.row, e.col) := by
  unfold spriteDots
  rw [List.pairwise_flatMap]
  refine ⟨fun bk _ => ?_, ?_⟩
  · rw [List.pairwise_filterMap]
    refine (List.nodup_range (n := 8)).imp_of_mem fun hi hj hij d hd e he hde => hij ?_
    obtain ⟨-, hdc⟩ := spriteDot_eq_some hd
    obtain ⟨-, hec⟩ := spriteDot_eq_some he
    rw [(Prod.mk.inj hde).2] at hdc
    exact lands_inj ((List.mem_range.mp hi).trans (by decide)) ((List.mem_range.mp hj).trans (by decide)) hdc hec
  · refine (List.pairwise_map.mp (List.nodup_zipIdx_map_snd rows)).imp_of_mem fun hk hm hkm d hd e he hde => hkm ?_
    obtain ⟨i, -, hd⟩ := List.mem_filterMap.mp hd
    obtain ⟨j, -, he⟩ := List.mem_filterMap.mp he
    obtain ⟨hdr, -⟩ := spriteDot_eq_some hd
    obtain ⟨her, -⟩ := spriteDot_eq_some he
    rw [(Prod.mk.inj hde).1] at hdr
    exact lands_inj ((List.snd_lt_of_mem_zipIdx hk).trans_le hlen) ((List.snd_lt_of_mem_zipIdx hm).trans_le hlen) hdr her

/-- Settles O28: fifteen rows are fewer than the display's 32. -/
theorem spriteDotsNeverOverlap : Obligations.SpriteDotsNeverOverlap := by
  unfold Obligations.SpriteDotsNeverOverlap
  exact fun wrap x0 y0 rows h => spriteDots_pairwise wrap x0 y0 rows (h.trans (by decide))

/-! ### A plot, pixel by pixel -/

/-- Some 1 bit among the dots stands on the pixel. -/
def Lit (dots : List Dot) (r : Fin 32) (c : Fin 64) : Prop := ∃ t ∈ dots, t.row = r ∧ t.col = c ∧ t.bit = true

theorem pixel_plot_of_lit {d : Display} {dots : List Dot} {r : Fin 32} {c : Fin 64}
    (hp : dots.Pairwise fun a b => (a.row, a.col) ≠ (b.row, b.col)) (h : Lit dots r c) :
    pixel (plot d dots) r c = !pixel d r c := by
  obtain ⟨t, ht, rfl, rfl, hb⟩ := h
  rw [plot, pixel_plot_of_mem d d dots t ht hp, hb, Bool.xor_true]

/-- A 0 bit on the pixel leaves it as no dot at all does. -/
theorem pixel_plot_of_not_lit {d : Display} {dots : List Dot} {r : Fin 32} {c : Fin 64}
    (hp : dots.Pairwise fun a b => (a.row, a.col) ≠ (b.row, b.col)) (h : ¬ Lit dots r c) :
    pixel (plot d dots) r c = pixel d r c := by
  by_cases hon : ∃ t ∈ dots, t.row = r ∧ t.col = c
  · obtain ⟨t, ht, rfl, rfl⟩ := hon
    have hb : t.bit = false := Bool.eq_false_iff.mpr fun hb => h ⟨t, ht, rfl, rfl, hb⟩
    rw [plot, pixel_plot_of_mem d d dots t ht hp, hb, Bool.xor_false]
  · exact pixel_plot_of_not_mem d d dots r c fun t ht hrc => hon ⟨t, ht, hrc⟩

theorem collides_iff (d : Display) (dots : List Dot) :
    collides d dots = true ↔ ∃ r c, Lit dots r c ∧ pixel d r c = true := by
  simp only [collides, List.any_eq_true, Bool.and_eq_true]
  constructor
  · rintro ⟨t, ht, hb, hp⟩
    exact ⟨t.row, t.col, ⟨t, ht, rfl, rfl, hb⟩, hp⟩
  · rintro ⟨r, c, ⟨t, ht, rfl, rfl, hb⟩, hp⟩
    exact ⟨t, ht, hb, hp⟩

theorem display_ext {d e : Display} (h : ∀ r c, pixel d r c = pixel e r c) : d = e :=
  Vector.ext fun r hr => Vector.ext fun c hc => h ⟨r, hr⟩ ⟨c, hc⟩

/-! ### The dots of a draw (43_graphics R161) -/

/-- The dots that DRW Vx, Vy, n draws in `s` when the sprite is in memory. -/
def State.drawnDots (s : State) (x y : Reg) (n : Nibble) : List Dot :=
  spriteDots s.params.drawWrap ((s.readV x).toNat % 64) ((s.readV y).toNat % 32) (s.readBytes s.i.toNat n.toNat)

theorem State.drawnDots_pairwise (s : State) (x y : Reg) (n : Nibble) :
    (s.drawnDots x y n).Pairwise fun d e => (d.row, d.col) ≠ (e.row, e.col) := by
  refine spriteDots_pairwise _ _ _ _ ?_
  have := n.isLt
  rw [State.readBytes_length]
  omega

theorem lit_drawnDots_iff (s : State) (x y : Reg) (n : Nibble) (r : Fin 32) (c : Fin 64) :
    Lit (s.drawnDots x y n) r c ↔ s.spriteLights x y n r c := by
  simp only [Lit, State.drawnDots, mem_spriteDots, State.readBytes_length, State.spriteLights]
  constructor
  · rintro ⟨t, ⟨k, j, hk, hj, hr, hc, hb⟩, rfl, rfl, hbit⟩
    exact ⟨k, j, hk, hj, hr, hc, by simpa [State.readBytes] using hb.symm.trans hbit⟩
  · rintro ⟨k, j, hk, hj, hr, hc, hb⟩
    exact ⟨⟨r, c, true⟩, ⟨k, j, hk, hj, hr, hc, by simpa [State.readBytes] using hb.symm⟩, rfl, rfl, rfl⟩

theorem execDrw_of_inside {x y : Reg} {n : Nibble} {s : State} (h : n.toNat = 0 ∨ s.i.toNat + n.toNat ≤ 4096) :
    execDrw x y n s = .next ((s.advance.writeV flagReg (flagByte (collides s.display (s.drawnDots x y n)))).writeDisplay
      (plot s.display (s.drawnDots x y n))) := by
  rw [execDrw, s.loadAtI_of_inRange _ h]
  rfl

/-- Settles O27: the dots are at different places, so each pixel is flipped by at most one of them. -/
theorem drwXorsSpriteAndReportsCollision : Obligations.DrwXorsSpriteAndReportsCollision := by
  unfold Obligations.DrwXorsSpriteAndReportsCollision
  refine fun x y n => ⟨decodeWord_encode (.drw x y n), fun s h => ?_⟩
  have hp := s.drawnDots_pairwise x y n
  simp only [← lit_drawnDots_iff]
  refine ⟨_, _, execDrw_of_inside (by omega), rfl, fun r c => ⟨pixel_plot_of_lit hp, pixel_plot_of_not_lit hp⟩,
    fun hsome => ?_, fun hnone => ?_⟩
  · rw [(collides_iff ..).mpr hsome]
    rfl
  · have hcol : collides s.display (s.drawnDots x y n) = false := by
      refine Bool.eq_false_iff.mpr fun hc => ?_
      obtain ⟨r, c, hlit, hon⟩ := (collides_iff ..).mp hc
      exact absurd (hon.symm.trans (hnone r c hlit)) (by decide)
    rw [hcol]
    rfl

/-! ### A second draw -/

/-- A draw reads its two registers, I, memory and the wrapping mode. -/
theorem spriteLights_congr {s t : State} {x y : Reg} {n : Nibble} {r : Fin 32} {c : Fin 64} (hp : t.params = s.params)
    (hx : t.readV x = s.readV x) (hy : t.readV y = s.readV y) (hi : t.i = s.i)
    (hm : ∀ a, t.readByte a = s.readByte a) : t.spriteLights x y n r c ↔ s.spriteLights x y n r c := by
  simp only [State.spriteLights, hp, hx, hy, hi, hm]

/-- A draw from registers other than VF leaves what it reads, so the next one lights the same pixels. -/
theorem spriteLights_after_drw {x y : Reg} {n : Nibble} {s t : State} (hx : x ≠ 0xF) (hy : y ≠ 0xF)
    (h : exec (.drw x y n) s = .next t) (r : Fin 32) (c : Fin 64) :
    t.spriteLights x y n r c ↔ s.spriteLights x y n r c := by
  have keeps := exec_keeps h
  exact spriteLights_congr keeps.params (keeps.registers x (beq_false_of_ne hx)) (keeps.registers y (beq_false_of_ne hy))
    (keeps.index rfl) fun a => keeps.bytes a (Nat.lt_or_ge a s.i.toNat)

/-- Settles O29, from O27 twice: the second draw flips the same pixels back, and meets those that the first one lit. -/
theorem drawTwiceRestoresDisplay : Obligations.DrawTwiceRestoresDisplay := by
  unfold Obligations.DrawTwiceRestoresDisplay
  intro x y n s hx hy h
  obtain ⟨t, flag, ht, -, hfirst, -, -⟩ := (drwXorsSpriteAndReportsCollision x y n).2 s h
  have hi : t.i = s.i := (exec_keeps ht).index rfl
  obtain ⟨u, flag', hu, hueq, hsecond, hcollision, -⟩ :=
    (drwXorsSpriteAndReportsCollision x y n).2 t (by rwa [hi])
  have hlights := spriteLights_after_drw hx hy ht
  refine ⟨t, u, ht, hu, display_ext fun r c => ?_, fun ⟨r, c, hlit, hdark⟩ => ?_⟩
  · by_cases hlit : s.spriteLights x y n r c
    · exact ((hsecond r c).1 ((hlights r c).mpr hlit)).trans (by rw [(hfirst r c).1 hlit, Bool.not_not]; rfl)
    · exact ((hsecond r c).2 fun hl => hlit ((hlights r c).mp hl)).trans ((hfirst r c).2 hlit)
  · have hflag : u.readV 0xF = flag' := (congrArg (·.readV 0xF) hueq).trans (by rw [State.readV_writeV, if_pos rfl])
    rw [hflag]
    exact hcollision ⟨r, c, (hlights r c).mpr hlit, by rw [(hfirst r c).1 hlit, hdark]; rfl⟩

end Sys2Proof.Machine
end
